-- ==== Sys2Proof/Word.lean ====
section
/-! DEFINITION. The word types of the LFF frame codec (spec/00_scope.md R14, R15): bytes, the 32-bit hash and
size-field word, the 64-bit registers, and byte sequences. -/

namespace Sys2Proof

/-- A byte is 8 bits (R15). -/
abbrev Byte := BitVec 8

/-- The width of a hash and of a block size field (R12, R84). -/
abbrev Word32 := BitVec 32

/-- The width `XLEN` of operand, result, length and cursor registers (R14). -/
abbrev Word64 := BitVec 64

/-- A byte sequence, first byte first (R15). -/
abbrev ByteSeq := List Byte

end Sys2Proof
end

