-- ==== Sys2Proof/Syntax.lean ====
section
/-! DEFINITION. The commands of the LFF frame codec (spec/30_encoding.md R70, R71): one constructor per row of
spec/opcode_table.json. The command word carries no operand, so no constructor has an argument. -/

namespace Sys2Proof

/-- One command of the block (R71). -/
inductive Instr where
  | bscSel    -- BSC_SEL,   0x01
  | hdrEnc    -- HDR_ENC,   0x02
  | hdrDec    -- HDR_DEC,   0x03
  | bsfEnc    -- BSF_ENC,   0x04
  | bsfDec    -- BSF_DEC,   0x05
  | blkWrite  -- BLK_WRITE, 0x06
  | blkRead   -- BLK_READ,  0x07
  | csumGen   -- CSUM_GEN,  0x08
  | csumChk   -- CSUM_CHK,  0x09
  | frameEnc  -- FRAME_ENC, 0x0A
  | frameDec  -- FRAME_DEC, 0x0B
  deriving DecidableEq, Repr

end Sys2Proof
end

