-- ==== Sys2Proof/Decode.lean ====
section
/-! DEFINITION. The command decoder and encoder (spec/30_encoding.md R70 to R72). A command is the one byte written to
`CMD`; every byte has a verdict. -/

namespace Sys2Proof

/-- Why a command byte is no command. -/
inductive Reject where
  /-- 0x00 and 0x0C to 0xFF select no command (R72). -/
  | illegalCommand (code : Byte)
  deriving DecidableEq, Repr

/-- The command a byte written to `CMD` selects (R71), or the rejection of R72. -/
def decode (code : Byte) : Except Reject Instr :=
  match code.toNat with
  | 0x01 => .ok .bscSel
  | 0x02 => .ok .hdrEnc
  | 0x03 => .ok .hdrDec
  | 0x04 => .ok .bsfEnc
  | 0x05 => .ok .bsfDec
  | 0x06 => .ok .blkWrite
  | 0x07 => .ok .blkRead
  | 0x08 => .ok .csumGen
  | 0x09 => .ok .csumChk
  | 0x0A => .ok .frameEnc
  | 0x0B => .ok .frameDec
  | _ => .error (.illegalCommand code)

/-- The byte that selects a command (the codes of R71). -/
def encode : Instr → Byte
  | .bscSel => 0x01
  | .hdrEnc => 0x02
  | .hdrDec => 0x03
  | .bsfEnc => 0x04
  | .bsfDec => 0x05
  | .blkWrite => 0x06
  | .blkRead => 0x07
  | .csumGen => 0x08
  | .csumChk => 0x09
  | .frameEnc => 0x0A
  | .frameDec => 0x0B

/-- The decoder's answer for a word of the opcode table: every row has eight bits (R70). -/
def decodeTableWord (nbits w : Nat) : Option Instr :=
  if nbits = 8 ∧ w < 256 then
    match decode (BitVec.ofNat 8 w) with
    | .ok i => some i
    | .error _ => none
  else none

end Sys2Proof
end

