-- ==== Sys2Proof/Config.lean ====
section
/-! DEFINITION. What an implementation fixes and what the spec leaves to it (spec/00_scope.md R10 to R14, R21): the
parameters of the step relation as one record, and the three collaborators the spec leaves open as constants with no body.
The default values of the other parameters stand in Sys2Proof/Machine/Params.lean. -/

namespace Sys2Proof

/-- The three byte buffers of R30, named by the role of their content. -/
inductive BufName where
  | cont  -- the original content
  | payl  -- the payload stored in the blocks
  | fram  -- container bytes
  deriving DecidableEq, Repr

/-- The four block-size classes, index `k = 0, 1, 2, 3` (R9). -/
inductive SizeClass where
  | k0
  | k1
  | k2
  | k3
  deriving DecidableEq, Repr

/-- `SPLIT_POLICY` (R11): how a payload that is an exact nonzero multiple of the maximum block size is split. -/
inductive SplitPolicy where
  | ceil
  | reference
  deriving DecidableEq, Repr

/-- The parameters of the step relation (R21). They are no state: nothing the block does changes one. -/
structure Params where
  /-- `HASH32` with seed 0 (R12). -/
  hash32 : ByteSeq → Word32
  /-- `COMPRESS` (R13); `none` is *fail*. -/
  compress : ByteSeq → Option ByteSeq
  /-- `DECOMPRESS(bytes, compressedLen, expectedDecompressedLen)` (R13); `none` is *fail*. -/
  decompress : ByteSeq → Nat → Nat → Option ByteSeq
  /-- `FLG_BASE` (R10): the flags byte without the block-independence bit. -/
  flgBase : Byte
  /-- `FLG_INDEP_BIT` (R10). -/
  flgIndepBit : Nat
  /-- `BD_OF_CLASS` (R10): the descriptor byte of a class. -/
  bdOfClass : SizeClass → Byte
  /-- `CLASS_CODE` (R10): the `classCode` of a class. -/
  classCode : SizeClass → Word64
  /-- `SPLIT_POLICY` (R11). -/
  splitPolicy : SplitPolicy
  /-- `CAP_CONT` (R14). -/
  capCont : Nat
  /-- `CAP_PAYL` (R14). -/
  capPayl : Nat
  /-- `CAP_FRAM` (R14). -/
  capFram : Nat

/-- The capacity of a buffer (R14). -/
def Params.cap (p : Params) : BufName → Nat
  | .cont => p.capCont
  | .payl => p.capPayl
  | .fram => p.capFram

/-- The external 32-bit hash, seed 0 (R12, R140): a total function of the byte sequence and nothing more is known of it.
OPEN in the spec, so it has no body (log entry 4). -/
opaque Config.hash32 : ByteSeq → Word32

/-- The external raw block compressor (R13, R150), `none` when it fails. OPEN in the spec (log entry 4). -/
opaque Config.compress : ByteSeq → Option ByteSeq

/-- The external raw block decompressor (R13, R151): payload, its length, the expected decompressed length; `none` when it
fails. OPEN in the spec (log entry 4). -/
opaque Config.decompress : ByteSeq → Nat → Nat → Option ByteSeq

end Sys2Proof
end

