-- ==== Sys2Proof/Machine/State.lean ====
section
/-! DEFINITION. The architectural state of one LFF frame codec (spec/10_state.md R20 to R34), the host's pending moves,
the error kinds, and the reasons a step can stop. -/

namespace Sys2Proof.Machine

/-- The fifteen registers by name (R22); their numbers are in Sys2Proof/Machine/Operands.lean. -/
inductive Reg where
  | cmd
  | status
  | err
  | arg0
  | arg1
  | res0
  | res1
  | off
  | clen
  | plen
  | flen
  | hdrFlg
  | hdrBd
  | hdrCsize
  | hdrHc
  deriving DecidableEq, Repr

/-- The error kinds a command can end with (R171); `None` is the absence of one. -/
inductive ErrKind where
  | magicMismatch
  | headerChecksumMismatch
  | contentChecksumMismatch
  | decompressionFailed
  | truncatedInput
  | compressionFailed
  | badOperand
  | illegalCommand
  | capacityExceeded
  deriving DecidableEq, Repr

/-- What the host does between commands (R22, R31, R34, R59, R75). -/
inductive HostAction where
  /-- `SET` and `CMD`: a value written to a register (R75). -/
  | write (r : Reg) (v : Word64)
  /-- `LOAD`: a buffer loaded whole (R31). -/
  | load (b : BufName) (bytes : ByteSeq)
  /-- `GET`: a register read (R22). -/
  | get (r : Reg)
  /-- `READ`: a buffer read (R31). -/
  | read (b : BufName)
  /-- `MOV src -> dst`: `GET src`, then `SET dst` with the value read (R75). -/
  | mov (src dst : Reg)
  /-- The reset input asserted (R34). -/
  | reset
  deriving DecidableEq, Repr

/-- What a host read returns. -/
inductive BusData where
  | word (v : Word64)
  | bytes (s : ByteSeq)
  deriving DecidableEq, Repr

/-- The three buffers (R30): an address is a buffer and a byte offset below the sequence's length (R50), so a byte
sequence is the one form of its content. -/
structure Memory where
  cont : ByteSeq
  payl : ByteSeq
  fram : ByteSeq
  deriving DecidableEq, Repr

/-- The architectural state (R20), and the model's own `host` and `bus` (log entries 1 and 3). The length registers
`CLEN`, `PLEN`, `FLEN` have their home in the buffers (R28; log entry 8): `State.clen`, `State.plen`, `State.flen`. -/
structure State where
  /-- `CMD`, the value last written to it. -/
  cmd : Byte
  /-- `STATUS` (R25). -/
  status : Byte
  /-- `ERR` (R26). -/
  err : Byte
  /-- `ARG0` (R23). -/
  arg0 : Word64
  /-- `ARG1` (R23). -/
  arg1 : Word64
  /-- `RES0` (R23). -/
  res0 : Word64
  /-- `RES1` (R23). -/
  res1 : Word64
  /-- `OFF`, the cursor into `FRAM` (R24). -/
  off : Word64
  /-- `HDR_FLG` (R27). -/
  hdrFlg : Byte
  /-- `HDR_BD` (R27). -/
  hdrBd : Byte
  /-- `HDR_CSIZE` (R27). -/
  hdrCsize : Word64
  /-- `HDR_HC` (R27). -/
  hdrHc : Byte
  /-- The buffers (R30). -/
  mem : Memory
  /-- The host's pending actions, oldest first: the model's own field. -/
  host : List HostAction
  /-- What the host's most recent read returned: the model's own field. -/
  bus : Option BusData
  deriving DecidableEq, Repr

/-- `CLEN`, the length of `CONT` (R28). -/
def State.clen (s : State) : Word64 := BitVec.ofNat 64 s.mem.cont.length

/-- `PLEN`, the length of `PAYL` (R28). -/
def State.plen (s : State) : Word64 := BitVec.ofNat 64 s.mem.payl.length

/-- `FLEN`, the length of `FRAM` (R28). -/
def State.flen (s : State) : Word64 := BitVec.ofNat 64 s.mem.fram.length

/-- The state after reset (R34, R190): every register 0, every buffer empty. No host action is pending and the host has
read nothing (log entries 2 and 3). -/
def State.reset : State :=
  { cmd := 0, status := 0, err := 0, arg0 := 0, arg1 := 0, res0 := 0, res1 := 0, off := 0
    hdrFlg := 0, hdrBd := 0, hdrCsize := 0, hdrHc := 0
    mem := { cont := [], payl := [], fram := [] }
    host := [], bus := none }

/-- Why the machine stops. The spec's own errors are no stops: a failing command is a next state (R176). -/
inductive Fault where
  /-- Raised by a step whose host action loads a buffer with more bytes than its capacity: "A load with `|s| > CAP_B` is
  not a move the host has" (R31; log entry 10). Safe: the model stops where the spec says nothing can happen. -/
  | loadOverCapacity
  deriving DecidableEq, Repr

/-- Why an instruction has no meaning. -/
inductive Refusal where
  /-- Raised by an arm of `exec` whose instruction has no meaning yet; no arm raises it. Safe: the model stops. -/
  | notModelled (mnemonic : String)
  deriving DecidableEq, Repr

end Sys2Proof.Machine
end

