-- ==== Sys2Proof/Machine/Flags.lean ====
section
/-! DEFINITION. The status bits, the error codes and the boolean results (spec/10_state.md R25, R26;
spec/60_exceptions.md R171). -/

namespace Sys2Proof.Machine

/-- `STATUS.DONE`, bit 0 (R25). -/
def State.doneFlag (s : State) : Bool := s.status.getLsbD 0

/-- `STATUS.ERR`, bit 1 (R25). -/
def State.errFlag (s : State) : Bool := s.status.getLsbD 1

/-- `STATUS` as a command leaves it: `DONE` set, `ERR` as told, bits 7:2 zero (R25, R176; log entry 16). -/
def statusWord (failed : Bool) : Byte := 0x01 ||| ((BitVec.ofBool failed).setWidth 8 <<< 1)

/-- The code of an error kind in `ERR` (R171). -/
def ErrKind.code : ErrKind → Byte
  | .magicMismatch => 0x01
  | .headerChecksumMismatch => 0x02
  | .contentChecksumMismatch => 0x03
  | .decompressionFailed => 0x04
  | .truncatedInput => 0x05
  | .compressionFailed => 0x06
  | .badOperand => 0x07
  | .illegalCommand => 0x08
  | .capacityExceeded => 0x09

/-- The code of `None` in `ERR` (R171). -/
def noErrorCode : Byte := 0x00

/-- A boolean result: bit 0 of the register, the rest 0 (R25). -/
def boolResult (u : Bool) : Word64 := (BitVec.ofBool u).setWidth 64

end Sys2Proof.Machine
end

