-- ==== Sys2Proof/Machine/Operands.lean ====
section
/-! DEFINITION. Registers as the host sees them (spec/10_state.md R22), operand ranges (spec/30_encoding.md R73) and the
named fields of the flags and descriptor bytes (R79, R81). -/

namespace Sys2Proof.Machine

/-- The register numbers (R22). -/
def Reg.number : Reg → Byte
  | .cmd => 0x00
  | .status => 0x01
  | .err => 0x02
  | .arg0 => 0x03
  | .arg1 => 0x04
  | .res0 => 0x05
  | .res1 => 0x06
  | .off => 0x07
  | .clen => 0x08
  | .plen => 0x09
  | .flen => 0x0A
  | .hdrFlg => 0x0B
  | .hdrBd => 0x0C
  | .hdrCsize => 0x0D
  | .hdrHc => 0x0E

/-- The value of a register, zero-extended to the 64 bits of the host's read (R22). -/
def State.readReg (s : State) : Reg → Word64
  | .cmd => s.cmd.setWidth 64
  | .status => s.status.setWidth 64
  | .err => s.err.setWidth 64
  | .arg0 => s.arg0
  | .arg1 => s.arg1
  | .res0 => s.res0
  | .res1 => s.res1
  | .off => s.off
  | .clen => s.clen
  | .plen => s.plen
  | .flen => s.flen
  | .hdrFlg => s.hdrFlg.setWidth 64
  | .hdrBd => s.hdrBd.setWidth 64
  | .hdrCsize => s.hdrCsize
  | .hdrHc => s.hdrHc.setWidth 64

/-- A host write to a register other than `CMD`: `ARG0`, `ARG1` and `OFF` take the value, and "a host write to a register
the host may only read is ignored" (R22). A write to `CMD` starts a command: Sys2Proof/Machine/HostPort.lean. -/
def State.hostWriteReg (s : State) (r : Reg) (v : Word64) : State :=
  match r with
  | .arg0 => { s with arg0 := v }
  | .arg1 => { s with arg1 := v }
  | .off => { s with off := v }
  | .cmd | .status | .err | .res0 | .res1 | .clen | .plen | .flen | .hdrFlg | .hdrBd | .hdrCsize | .hdrHc => s

/-- A length operand of `BSF_ENC` is a `uint31` (R73). -/
def lengthOperandOk (v : Word64) : Bool := decide (v.toNat < 2 ^ 31)

/-- A flag operand is 0 or 1 (R73). -/
def flagOperandOk (v : Word64) : Bool := decide (v.toNat < 2)

/-- A maximum-block-size operand is in `1 .. 2^31 - 1` (R73). -/
def maxBlockOperandOk (v : Word64) : Bool := decide (1 ≤ v.toNat) && decide (v.toNat < 2 ^ 31)

/-- A flag operand as a truth value (R73). -/
def flagOperand (v : Word64) : Bool := v.getLsbD 0

/-- `VERSION`, bits 7:6 of the flags byte (R79). -/
def flgVersion (b : Byte) : BitVec 2 := b.extractLsb' 6 2

/-- `B_INDEP`, bit 5 (R79). -/
def flgBIndep (b : Byte) : Bool := b.getLsbD 5

/-- `B_CHECKSUM`, bit 4 (R79). -/
def flgBChecksum (b : Byte) : Bool := b.getLsbD 4

/-- `C_SIZE`, bit 3 (R79). -/
def flgCSize (b : Byte) : Bool := b.getLsbD 3

/-- `C_CHECKSUM`, bit 2 (R79). -/
def flgCChecksum (b : Byte) : Bool := b.getLsbD 2

/-- `RESERVED`, bit 1 (R79). -/
def flgReserved (b : Byte) : Bool := b.getLsbD 1

/-- `DICT_ID`, bit 0 (R79). -/
def flgDictId (b : Byte) : Bool := b.getLsbD 0

/-- The class code in bits 6:4 of the descriptor byte as the default `BD_OF_CLASS` writes it (R81); no rule of the block
reads it. -/
def bdClassCode (b : Byte) : BitVec 3 := b.extractLsb' 4 3

end Sys2Proof.Machine
end

