-- ==== Sys2Proof/Machine/Ops.lean ====
section
/-! DEFINITION. The shared operations: byte sequences and little-endian fields (spec/00_scope.md R15, R16), buffers
(spec/10_state.md R30 to R33), and the completion of a command with or without an error kind (spec/60_exceptions.md
R176). -/

namespace Sys2Proof.Machine

/-- `s[a .. a+n)` (R15). -/
def slice (s : ByteSeq) (a n : Nat) : ByteSeq := (s.drop a).take n

/-- `s[i]` for an `i` that a rule has checked to be below `|s|` (R15). -/
def byteAt (s : ByteSeq) (i : Nat) : Byte := s.getD i 0

/-- `LE32(w)` (R16). -/
def le32 (w : Word32) : ByteSeq :=
  [w.extractLsb' 0 8, w.extractLsb' 8 8, w.extractLsb' 16 8, w.extractLsb' 24 8]

/-- `LE64(w)` (R16). -/
def le64 (w : Word64) : ByteSeq :=
  [w.extractLsb' 0 8, w.extractLsb' 8 8, w.extractLsb' 16 8, w.extractLsb' 24 8,
   w.extractLsb' 32 8, w.extractLsb' 40 8, w.extractLsb' 48 8, w.extractLsb' 56 8]

/-- `UNLE` of a byte sequence of any length (R16): the byte at the lowest offset is the least significant (R53). -/
def unle : ByteSeq → Nat
  | [] => 0
  | b :: rest => b.toNat + 2 ^ 8 * unle rest

/-- `UNLE32` of a 4-byte sequence, as a word (R16). -/
def unle32 (s : ByteSeq) : Word32 := BitVec.ofNat 32 (unle s)

/-- `UNLE64` of an 8-byte sequence, as a word (R16). -/
def unle64 (s : ByteSeq) : Word64 := BitVec.ofNat 64 (unle s)

/-- The whole content of a buffer, `Buf(B)` (R17, R30). -/
def Memory.buf (m : Memory) : BufName → ByteSeq
  | .cont => m.cont
  | .payl => m.payl
  | .fram => m.fram

/-- `Buf(B) <- s` (R17): the content is replaced whole (R32), and with it the length. -/
def Memory.setBuf (m : Memory) (b : BufName) (s : ByteSeq) : Memory :=
  match b with
  | .cont => { m with cont := s }
  | .payl => { m with payl := s }
  | .fram => { m with fram := s }

/-- The byte at an address, a buffer and an offset (R50); none at or beyond the buffer's length (R30). -/
def Memory.byte (m : Memory) (b : BufName) (off : Nat) : Option Byte := (m.buf b)[off]?

/-- The form of memory: no buffer is longer than its capacity (R31, R33). Equal memories are equal data, since a buffer
is the sequence of its bytes. -/
def Memory.wf (p : Params) (m : Memory) : Bool :=
  decide (m.cont.length ≤ p.capCont) && decide (m.payl.length ≤ p.capPayl)
    && decide (m.fram.length ≤ p.capFram)

/-- A byte sequence fits a buffer (R31, R33). -/
def fits (p : Params) (b : BufName) (s : ByteSeq) : Bool := decide (s.length ≤ p.cap b)

/-- `Buf(B) <- s` on the state. -/
def State.setBuf (s : State) (b : BufName) (bytes : ByteSeq) : State :=
  { s with mem := s.mem.setBuf b bytes }

/-- The end of a successful command: `STATUS.DONE <- 1`, `STATUS.ERR <- 0`, `ERR <- 0` (R176). -/
def State.succeed (s : State) : State :=
  { s with status := statusWord false, err := noErrorCode }

/-- Taking an error, `raise K` (R17, R176): `STATUS.DONE <- 1`, `STATUS.ERR <- 1`, `ERR <- code(K)`, "and no other register
and no buffer changes". There is nothing to return from (R178). -/
def State.raise (s : State) (k : ErrKind) : State :=
  { s with status := statusWord true, err := k.code }

/-- The commit of a command (R17, R58): the writes of a success take effect together, an error kind commits `STATUS` and
`ERR` only. -/
def State.complete (s : State) : Except ErrKind State → State
  | .ok t => t.succeed
  | .error k => s.raise k

end Sys2Proof.Machine
end

