-- ==== Sys2Proof/Machine/Params.lean ====
section
/-! DEFINITION. The constants of the wire format (spec/00_scope.md R8, R9) and the parameters of the modelled block: the
spec's defaults (R10, R11, R14) and the three open collaborators of Sys2Proof/Config.lean. -/

namespace Sys2Proof.Machine

/-- `MAGIC` (R8). -/
def magic : Word32 := 0x184D2204

/-- `HDR_LEN` (R8). -/
def hdrLen : Nat := 15

/-- `CLASS_MAX` (R9): the maximum block length of a class. -/
def classMax : SizeClass → Nat
  | .k0 => 64000
  | .k1 => 256000
  | .k2 => 1000000
  | .k3 => 4000000

/-- The default `BD_OF_CLASS` (R10), general knowledge by the spec's own mark (log entry 5). -/
def defaultBdOfClass : SizeClass → Byte
  | .k0 => 0x40
  | .k1 => 0x50
  | .k2 => 0x60
  | .k3 => 0x70

/-- The default `CLASS_CODE` (R10), general knowledge by the spec's own mark (log entry 5). -/
def defaultClassCode : SizeClass → Word64
  | .k0 => 4
  | .k1 => 5
  | .k2 => 6
  | .k3 => 7

/-- The parameters of the block the machine runs with: every default of R10, R11 and R14, the collaborators open
(log entries 4 to 7). -/
def params : Params :=
  { hash32 := Config.hash32
    compress := Config.compress
    decompress := Config.decompress
    flgBase := 0x4C
    flgIndepBit := 5
    bdOfClass := defaultBdOfClass
    classCode := defaultClassCode
    splitPolicy := .ceil
    capCont := 2 ^ 64 - 1
    capPayl := 2 ^ 64 - 1
    capFram := 2 ^ 64 - 1 }

end Sys2Proof.Machine
end

