-- ==== Sys2Proof/Machine/BlockCodec.lean ====
section
/-! DEFINITION. The block-record codec (spec/41_block_codec.md): `BSF_ENC`, `BSF_DEC`, `BLK_WRITE`, `BLK_READ`. -/

namespace Sys2Proof.Machine

/-- The value of a block size field (R84, R120): length in bits 30:0, uncompressed flag in bit 31. -/
def bsfWord (n : Nat) (u : Bool) : Word32 := BitVec.ofNat 32 n ||| ((BitVec.ofBool u).setWidth 32 <<< 31)

/-- `EncodeBSF(n, u)` (R120). -/
def encodeBsf (n : Nat) (u : Bool) : ByteSeq := le32 (bsfWord n u)

/-- `BSF_ENC` (R121). -/
def runBsfEnc (p : Params) (s : State) : Except ErrKind State :=
  if !lengthOperandOk s.arg0 then .error .badOperand
  else if !flagOperandOk s.arg1 then .error .badOperand
  else
    let w := bsfWord s.arg0.toNat (flagOperand s.arg1)
    if fits p .fram (le32 w) then .ok { s.setBuf .fram (le32 w) with res0 := w.setWidth 64 }
    else .error .capacityExceeded

/-- `DecodeBSF(s)` (R122): the length `w[30:0]` and the uncompressed flag `w[31]`. -/
def decodeBsf (f : ByteSeq) : Nat × Bool :=
  let w := unle32 f
  ((w.extractLsb' 0 31).toNat, w.getLsbD 31)

/-- `BSF_DEC` (R123): `OFF` is read and not advanced; the addition does not wrap. -/
def runBsfDec (_p : Params) (s : State) : Except ErrKind State :=
  if s.off.toNat + 4 > s.mem.fram.length then .error .truncatedInput
  else
    let f := decodeBsf (slice s.mem.fram s.off.toNat 4)
    .ok { s with res0 := BitVec.ofNat 64 f.1, res1 := boolResult f.2 }

/-- Whether `Split` ends with the remainder range (R124): under `ceil` only when the remainder is not 0, under `reference`
whenever there is a payload. -/
def hasRemainderRange (policy : SplitPolicy) (payloadLength m : Nat) : Bool :=
  match policy with
  | .ceil => decide (payloadLength % m > 0)
  | .reference => decide (payloadLength > 0)

/-- `Split(P, m)` (R124) as ranges `(start, length)`, for a maximum `m` of at least 1: `P div m` full ranges, then the
remainder range. -/
def split (policy : SplitPolicy) (payloadLength m : Nat) : List (Nat × Nat) :=
  let q := payloadLength / m
  (List.range q).map (fun i => (i * m, m))
    ++ (if hasRemainderRange policy payloadLength m then [(q * m, payloadLength % m)] else [])

/-- The EndMark (R85). -/
def endMark : ByteSeq := [0x00, 0x00, 0x00, 0x00]

/-- One block record: the size field, then the bytes of the range (R84, R126). -/
def blockRecord (payload : ByteSeq) (u : Bool) (range : Nat × Nat) : ByteSeq :=
  encodeBsf range.2 u ++ slice payload range.1 range.2

/-- `WriteBlocks(p, m, u)` (R126): the records in order, each with the same flag, then the EndMark. -/
def writeBlocks (policy : SplitPolicy) (payload : ByteSeq) (m : Nat) (u : Bool) : ByteSeq :=
  (split policy payload.length m).flatMap (blockRecord payload u) ++ endMark

/-- `BLK_WRITE` (R127). -/
def runBlkWrite (p : Params) (s : State) : Except ErrKind State :=
  if !maxBlockOperandOk s.arg0 then .error .badOperand
  else if !flagOperandOk s.arg1 then .error .badOperand
  else
    let out := writeBlocks p.splitPolicy s.mem.payl s.arg0.toNat (flagOperand s.arg1)
    let b := (split p.splitPolicy s.mem.payl.length s.arg0.toNat).length
    if fits p .fram out then .ok { s.setBuf .fram out with res0 := BitVec.ofNat 64 b }
    else .error .capacityExceeded

/-- What reading blocks up to the sentinel returns (R128). -/
structure BlockRun where
  payload : ByteSeq
  allUnc : Bool
  newOffset : Nat
  count : Nat
  deriving DecidableEq, Repr

/-- The loop of `ReadBlocks` (R128): at most `turns` turns, from offset `o`, with the payload, the conjunction of flags
(R130) and the count so far. The sentinel is any field of length 0, whatever its flag (R129); no length is checked
against a class maximum (R134). The turns run out only where the field would lie beyond the end (R132; log entry 15). -/
def readBlocksLoop (c : ByteSeq) : (turns o : Nat) → ByteSeq → Bool → Nat → Except ErrKind BlockRun
  | 0, _, _, _, _ => .error .truncatedInput
  | turns + 1, o, acc, all, cnt =>
    if o + 4 > c.length then .error .truncatedInput
    else
      let f := decodeBsf (slice c o 4)
      if f.1 = 0 then .ok { payload := acc, allUnc := all, newOffset := o + 4, count := cnt }
      else if o + 4 + f.1 > c.length then .error .truncatedInput
      else readBlocksLoop c turns (o + 4 + f.1) (acc ++ slice c (o + 4) f.1) (all && f.2) (cnt + 1)

/-- `ReadBlocks(c, o)` (R128), with the bound of R132 on its turns. -/
def readBlocks (c : ByteSeq) (o : Nat) : Except ErrKind BlockRun :=
  readBlocksLoop c (c.length / 5 + 1) o [] true 0

/-- `BLK_READ` (R131). -/
def runBlkRead (p : Params) (s : State) : Except ErrKind State :=
  match readBlocks s.mem.fram s.off.toNat with
  | .error k => .error k
  | .ok r =>
    if fits p .payl r.payload then
      .ok { s.setBuf .payl r.payload with
              res0 := BitVec.ofNat 64 r.count
              res1 := boolResult r.allUnc
              off := BitVec.ofNat 64 r.newOffset }
    else .error .capacityExceeded

/-- The meaning of `BSF_ENC` (R121). -/
def execBsfEnc (s : State) : Host.Outcome State Fault Refusal := .next (s.complete (runBsfEnc params s))

/-- The meaning of `BSF_DEC` (R123). -/
def execBsfDec (s : State) : Host.Outcome State Fault Refusal := .next (s.complete (runBsfDec params s))

/-- The meaning of `BLK_WRITE` (R127). -/
def execBlkWrite (s : State) : Host.Outcome State Fault Refusal := .next (s.complete (runBlkWrite params s))

/-- The meaning of `BLK_READ` (R131). -/
def execBlkRead (s : State) : Host.Outcome State Fault Refusal := .next (s.complete (runBlkRead params s))

end Sys2Proof.Machine
end

