-- ==== Sys2Proof/Machine/Checksum.lean ====
section
/-! DEFINITION. The frame checksum validator (spec/42_checksum.md): `CSUM_GEN`, `CSUM_CHK`. -/

namespace Sys2Proof.Machine

/-- `ContentChecksum(x)` (R141): all 32 bits of the hash of the content, little-endian. -/
def contentChecksum (p : Params) (content : ByteSeq) : ByteSeq := le32 (p.hash32 content)

/-- `CSUM_GEN` (R142). -/
def runCsumGen (p : Params) (s : State) : Except ErrKind State :=
  let cks := contentChecksum p s.mem.cont
  if fits p .fram cks then
    .ok { s.setBuf .fram cks with res0 := (p.hash32 s.mem.cont).setWidth 64 }
  else .error .capacityExceeded

/-- The check of a stored content checksum at an offset of a container (R143, R155 step 4): presence first, then the
comparison of all 32 bits; the recomputed hash on success. -/
def checkContent (p : Params) (c : ByteSeq) (o : Nat) (content : ByteSeq) : Except ErrKind Word32 :=
  if o + 4 > c.length then .error .truncatedInput
  else if p.hash32 content ≠ unle32 (slice c o 4) then .error .contentChecksumMismatch
  else .ok (p.hash32 content)

/-- `CSUM_CHK` (R143): `OFF` is read and not advanced. -/
def runCsumChk (p : Params) (s : State) : Except ErrKind State :=
  match checkContent p s.mem.fram s.off.toNat s.mem.cont with
  | .error k => .error k
  | .ok h => .ok { s with res0 := h.setWidth 64 }

/-- The meaning of `CSUM_GEN` (R142). -/
def execCsumGen (s : State) : Host.Outcome State Fault Refusal := .next (s.complete (runCsumGen params s))

/-- The meaning of `CSUM_CHK` (R143). -/
def execCsumChk (s : State) : Host.Outcome State Fault Refusal := .next (s.complete (runCsumChk params s))

end Sys2Proof.Machine
end

