-- ==== Sys2Proof/Machine/HeaderCodec.lean ====
section
/-! DEFINITION. The frame-header codec (spec/40_header_codec.md): `BSC_SEL`, `HDR_ENC`, `HDR_DEC`. The functions take the
parameters of the block; each meaning is its function at `Machine.params`. -/

namespace Sys2Proof.Machine

/-- `ClassOf(n)` (R100): strict thresholds, unsigned, no upper limit. -/
def classOf (n : Nat) : SizeClass :=
  if n < 64000 then .k0
  else if n < 256000 then .k1
  else if n < 1000000 then .k2
  else .k3

/-- `BSC_SEL` (R101). -/
def runBscSel (p : Params) (s : State) : Except ErrKind State :=
  let k := classOf s.arg0.toNat
  .ok { s with res0 := p.classCode k, res1 := BitVec.ofNat 64 (classMax k) }

/-- `indep(P)` (R102): the inequality, not the words "exactly one block" (90_conflicts.md C1). -/
def indep (payloadLength : Nat) : Bool := decide (payloadLength < classMax (classOf payloadLength))

/-- The flags byte the encoder writes (R80, R102). -/
def flagsByte (p : Params) (payloadLength : Nat) : Byte :=
  p.flgBase ||| ((BitVec.ofBool (indep payloadLength)).setWidth 8 <<< p.flgIndepBit)

/-- `HeaderChecksum(d)` (R105): bits 15:8 of the hash. -/
def headerChecksum (p : Params) (d : ByteSeq) : Byte := (p.hash32 d).extractLsb' 8 8

/-- The ten bytes the header checksum hashes (R83): flags, descriptor, content size. -/
def descriptorBytes (flg bd : Byte) (csize : Word64) : ByteSeq := flg :: bd :: le64 csize

/-- `EncodeHeader(L, P)` (R103): class and independence from the payload length, content size from the original length. -/
def encodeHeader (p : Params) (originalLength : Word64) (payloadLength : Nat) : ByteSeq :=
  let d := descriptorBytes (flagsByte p payloadLength) (p.bdOfClass (classOf payloadLength)) originalLength
  le32 magic ++ d ++ [headerChecksum p d]

/-- `HDR_ENC` (R104). -/
def runHdrEnc (p : Params) (s : State) : Except ErrKind State :=
  let h := encodeHeader p s.arg0 s.arg1.toNat
  let k := classOf s.arg1.toNat
  if fits p .fram h then
    .ok { s.setBuf .fram h with res0 := p.classCode k, res1 := BitVec.ofNat 64 (classMax k) }
  else .error .capacityExceeded

/-- The `FrameHeader` that decoding returns (R106); the magic number is not kept (R27). -/
structure FrameHeader where
  flg : Byte
  bd : Byte
  csize : Word64
  hc : Byte
  deriving DecidableEq, Repr

/-- `DecodeHeader(c)` (R106), its checks in the order of the rule; no bit of the flags or the descriptor is examined
(R108) and the content size is read at full width (R107). -/
def decodeHeader (p : Params) (c : ByteSeq) : Except ErrKind FrameHeader :=
  if c.length < 4 then .error .truncatedInput
  else if unle32 (slice c 0 4) ≠ magic then .error .magicMismatch
  else if c.length < hdrLen then .error .truncatedInput
  else if headerChecksum p (slice c 4 10) ≠ byteAt c 14 then .error .headerChecksumMismatch
  else .ok { flg := byteAt c 4, bd := byteAt c 5, csize := unle64 (slice c 6 8), hc := byteAt c 14 }

/-- The four header registers are written together (R27). -/
def State.setHeader (s : State) (h : FrameHeader) : State :=
  { s with hdrFlg := h.flg, hdrBd := h.bd, hdrCsize := h.csize, hdrHc := h.hc }

/-- `HDR_DEC` (R109): from offset 0 of `FRAM`, the input value of `OFF` is not read. -/
def runHdrDec (p : Params) (s : State) : Except ErrKind State :=
  match decodeHeader p s.mem.fram with
  | .error k => .error k
  | .ok h => .ok { s.setHeader h with off := BitVec.ofNat 64 hdrLen }

/-- The meaning of `BSC_SEL` (R101). -/
def execBscSel (s : State) : Host.Outcome State Fault Refusal := .next (s.complete (runBscSel params s))

/-- The meaning of `HDR_ENC` (R104). -/
def execHdrEnc (s : State) : Host.Outcome State Fault Refusal := .next (s.complete (runHdrEnc params s))

/-- The meaning of `HDR_DEC` (R109). -/
def execHdrDec (s : State) : Host.Outcome State Fault Refusal := .next (s.complete (runHdrDec params s))

end Sys2Proof.Machine
end

