-- ==== Sys2Proof/Machine/FrameOps.lean ====
section
/-! DEFINITION. The frame-level commands (spec/43_frame_ops.md): `FRAME_ENC`, `FRAME_DEC`. -/

namespace Sys2Proof.Machine

/-- The payload and the stored flag for a content and its candidate compressed payload (R152): the candidate is discarded
only when it is strictly longer than the content. -/
def choosePayload (content candidate : ByteSeq) : ByteSeq × Bool :=
  if candidate.length > content.length then (content, true) else (candidate, false)

/-- What encoding a frame returns (R153, R154). -/
structure EncodedFrame where
  payload : ByteSeq
  stored : Bool
  blocks : Nat
  container : ByteSeq
  deriving DecidableEq, Repr

/-- Steps 2 to 8 of `EncodeFrame(x)` (R153), for the candidate that `COMPRESS` returned. -/
def assembleFrame (p : Params) (content candidate : ByteSeq) : EncodedFrame :=
  let pl := (choosePayload content candidate).1
  let st := (choosePayload content candidate).2
  let m := classMax (classOf pl.length)
  { payload := pl
    stored := st
    blocks := (split p.splitPolicy pl.length m).length
    container := encodeHeader p (BitVec.ofNat 64 content.length) pl.length
      ++ writeBlocks p.splitPolicy pl m st ++ contentChecksum p content }

/-- `EncodeFrame(x)` (R153); a failing compressor is `CompressionFailed` (R150). -/
def encodeFrame (p : Params) (content : ByteSeq) : Except ErrKind EncodedFrame :=
  match p.compress content with
  | none => .error .compressionFailed
  | some candidate => .ok (assembleFrame p content candidate)

/-- `FRAME_ENC` (R154). -/
def runFrameEnc (p : Params) (s : State) : Except ErrKind State :=
  match encodeFrame p s.mem.cont with
  | .error k => .error k
  | .ok e =>
    if fits p .payl e.payload && fits p .fram e.container then
      .ok { (s.setBuf .payl e.payload).setBuf .fram e.container with
              res0 := BitVec.ofNat 64 e.blocks
              res1 := boolResult e.stored }
    else .error .capacityExceeded

/-- The content recovered from a payload (R155 step 3): the payload itself when every block was stored, else the
decompressor's answer, which must have the expected length (R151). -/
def recoverContent (p : Params) (r : BlockRun) (csize : Word64) : Except ErrKind ByteSeq :=
  if r.allUnc then .ok r.payload
  else
    match p.decompress r.payload r.payload.length csize.toNat with
    | none => .error .decompressionFailed
    | some y => if y.length ≠ csize.toNat then .error .decompressionFailed else .ok y

/-- What decoding a frame returns (R155). -/
structure DecodedFrame where
  header : FrameHeader
  run : BlockRun
  content : ByteSeq
  endOffset : Nat
  deriving DecidableEq, Repr

/-- `DecodeFrame(f)` (R155), its steps in order, the first failure ending it. Bytes after the content checksum are not
read (R157). -/
def decodeFrame (p : Params) (f : ByteSeq) : Except ErrKind DecodedFrame :=
  match decodeHeader p f with
  | .error k => .error k
  | .ok h =>
    match readBlocks f hdrLen with
    | .error k => .error k
    | .ok r =>
      match recoverContent p r h.csize with
      | .error k => .error k
      | .ok y =>
        match checkContent p f r.newOffset y with
        | .error k => .error k
        | .ok _ => .ok { header := h, run := r, content := y, endOffset := r.newOffset + 4 }

/-- `FRAME_DEC` (R156): from offset 0 of `FRAM`, the input value of `OFF` is not read. -/
def runFrameDec (p : Params) (s : State) : Except ErrKind State :=
  match decodeFrame p s.mem.fram with
  | .error k => .error k
  | .ok d =>
    if fits p .payl d.run.payload && fits p .cont d.content then
      .ok { ((s.setHeader d.header).setBuf .payl d.run.payload).setBuf .cont d.content with
              res0 := BitVec.ofNat 64 d.run.count
              res1 := boolResult d.run.allUnc
              off := BitVec.ofNat 64 d.endOffset }
    else .error .capacityExceeded

/-- The meaning of `FRAME_ENC` (R154). -/
def execFrameEnc (s : State) : Host.Outcome State Fault Refusal := .next (s.complete (runFrameEnc params s))

/-- The meaning of `FRAME_DEC` (R156). -/
def execFrameDec (s : State) : Host.Outcome State Fault Refusal := .next (s.complete (runFrameDec params s))

end Sys2Proof.Machine
end

