-- ==== Sys2Proof/Machine/Dispatch.lean ====
section
/-! DEFINITION. One arm per command (spec/30_encoding.md R71). -/

namespace Sys2Proof.Machine

def exec (i : Instr) (s : State) : Host.Outcome State Fault Refusal :=
  match i with
  | .bscSel => Sys2Proof.Machine.execBscSel s
  | .hdrEnc => Sys2Proof.Machine.execHdrEnc s
  | .hdrDec => Sys2Proof.Machine.execHdrDec s
  | .bsfEnc => Sys2Proof.Machine.execBsfEnc s
  | .bsfDec => Sys2Proof.Machine.execBsfDec s
  | .blkWrite => Sys2Proof.Machine.execBlkWrite s
  | .blkRead => Sys2Proof.Machine.execBlkRead s
  | .csumGen => Sys2Proof.Machine.execCsumGen s
  | .csumChk => Sys2Proof.Machine.execCsumChk s
  | .frameEnc => Sys2Proof.Machine.execFrameEnc s
  | .frameDec => Sys2Proof.Machine.execFrameDec s

end Sys2Proof.Machine
end

