-- ==== Sys2Proof/Machine/HostPort.lean ====
section
/-! DEFINITION. What one action of the host does (spec/10_state.md R22, R31, R34; spec/30_encoding.md R72, R75;
spec/20_memory.md R58). -/

namespace Sys2Proof.Machine

/-- A byte written to `CMD` (R22, R70): the register takes it, and the command it selects runs to completion in the same
transition (R58); a byte that selects none ends at once with `IllegalCommand` (R72). -/
def hostCommand (code : Byte) (s : State) : Host.Outcome State Fault Refusal :=
  match decode code with
  | .ok i => exec i { s with cmd := code }
  | .error _ => .next (State.raise { s with cmd := code } .illegalCommand)

/-- The low 8 bits of a value written to `CMD` (R17: a write truncates to the register's width; log entry 11). -/
def commandByte (v : Word64) : Byte := v.setWidth 8

/-- The reset input asserted (R34, R190): the block's registers and buffers as `State.reset` has them; what belongs to the
host stays. -/
def State.assertReset (s : State) : State := { State.reset with host := s.host, bus := s.bus }

/-- One action of the host, already taken off the pending ones. Reads have no side effect on the block (R57); `MOV` is a
read followed by a write of the value read (R75). -/
def hostAct (a : HostAction) (s : State) : Host.Outcome State Fault Refusal :=
  match a with
  | .write .cmd v => hostCommand (commandByte v) s
  | .write r v => .next (s.hostWriteReg r v)
  | .load b bytes => if fits params b bytes then .next (s.setBuf b bytes) else .fault .loadOverCapacity
  | .get r => .next { s with bus := some (.word (s.readReg r)) }
  | .read b => .next { s with bus := some (.bytes (s.mem.buf b)) }
  | .mov src dst =>
    .next { s with bus := some (.word (s.readReg src)), host := .write dst (s.readReg src) :: s.host }
  | .reset => .next s.assertReset

/-- The step's work: the host's oldest pending action (R59), or nothing when the host does nothing (log entry 1). -/
def hostStep (s : State) : Host.Outcome State Fault Refusal :=
  match s.host with
  | [] => .next s
  | a :: rest => hostAct a { s with host := rest }

/-- The host's next action becomes a write of a command word to `CMD`, ahead of what it already has pending
(log entry 2). -/
def State.pushCommandWord (s : State) (_nbits w : Nat) : State :=
  { s with host := .write .cmd (BitVec.ofNat 64 (w % 256)) :: s.host }

end Sys2Proof.Machine
end

