-- ==== Sys2Proof/Machine/Step.lean ====
section
/-! DEFINITION. One step of the machine: one action of the host, a command being one atomic step (spec/20_memory.md R58,
R59). -/

namespace Sys2Proof.Machine

/-- One step: the host's oldest pending action (R59). -/
def step (s : State) : Host.Outcome State Fault Refusal := hostStep s

/-- The state whose very next step runs the command of the word `w` of an opcode-table row (log entry 2). -/
def State.withFetchWord (s : State) (nbits w : Nat) : State := s.pushCommandWord nbits w

end Sys2Proof.Machine
end

