-- ==== Sys2Proof/Machine/Parametric.lean ====
section
/-! DEFINITION. The commands at any parameters (spec/10_state.md R21: the parameters are arguments of the step relation).
`exec` is the case `Machine.params`; what is said of every `p` here is said of every collaborator, split policy and
capacity. -/

namespace Sys2Proof.Machine

/-- What a command commits at the parameters `p`, or the error kind it raises. -/
def runCommand (p : Params) (i : Instr) (s : State) : Except ErrKind State :=
  match i with
  | .bscSel => runBscSel p s
  | .hdrEnc => runHdrEnc p s
  | .hdrDec => runHdrDec p s
  | .bsfEnc => runBsfEnc p s
  | .bsfDec => runBsfDec p s
  | .blkWrite => runBlkWrite p s
  | .blkRead => runBlkRead p s
  | .csumGen => runCsumGen p s
  | .csumChk => runCsumChk p s
  | .frameEnc => runFrameEnc p s
  | .frameDec => runFrameDec p s

/-- The state after a command at the parameters `p`. -/
def commandWith (p : Params) (i : Instr) (s : State) : State := s.complete (runCommand p i s)

end Sys2Proof.Machine
end

