-- ==== Sys2Proof/WellFormed.lean ====
section
/-! DEFINITION. Which terms are well formed: command codes (spec/30_encoding.md R72), commands, host actions
(spec/10_state.md R31, R70) and parameters (spec/00_scope.md R10, R14). -/

namespace Sys2Proof

/-- A byte is the code of a command: 0x01 to 0x0B (R71, R72). -/
def wfCode (code : Byte) : Bool := 0x01 ≤ code.toNat && code.toNat ≤ 0x0B

/-- A command is well formed: it has no operand field that could be out of range (R70). -/
def Instr.wf : Instr → Bool
  | .bscSel | .hdrEnc | .hdrDec | .bsfEnc | .bsfDec | .blkWrite | .blkRead | .csumGen | .csumChk
  | .frameEnc | .frameDec => true

/-- Every capacity is in `1 .. 2^64 - 1` (R14), the independence bit lies in the flags byte and `FLG_BASE` leaves it clear
(R10). -/
def Params.wf (p : Params) : Bool :=
  decide (1 ≤ p.capCont) && decide (p.capCont < 2 ^ 64)
    && decide (1 ≤ p.capPayl) && decide (p.capPayl < 2 ^ 64)
    && decide (1 ≤ p.capFram) && decide (p.capFram < 2 ^ 64)
    && decide (p.flgIndepBit < 8) && !p.flgBase.getLsbD p.flgIndepBit

/-- A host action is one the host has: a load fits its buffer (R31) and a value for `CMD` has 8 bits (R70). -/
def Machine.HostAction.wf (p : Params) : Machine.HostAction → Bool
  | .write .cmd v => decide (v.toNat < 256)
  | .write _ _ => true
  | .load b bytes => decide (bytes.length ≤ p.cap b)
  | .get _ | .read _ | .mov _ _ | .reset => true

end Sys2Proof
end

