-- ==== Sys2Proof/Safety.lean ====
section
/-! DEFINITION. The terms the statements use: the invariant every step keeps (spec/10_state.md R25, R26, R27, R33, R34), and
a run of block records as the wire has it (spec/30_encoding.md R84, R85, R88). -/

namespace Sys2Proof.Machine

/-- The wire bytes of a run of block records, each a payload with its uncompressed flag (R84). -/
def records (recs : List (ByteSeq × Bool)) : ByteSeq :=
  recs.flatMap (fun r => encodeBsf r.1.length r.2 ++ r.1)

/-- Every record has a payload the size field can give and that is no sentinel: `1 <= n <= 2^31 - 1` (R84, R129). -/
def RecordsLegal (recs : List (ByteSeq × Bool)) : Prop :=
  ∀ r ∈ recs, 1 ≤ r.1.length ∧ r.1.length < 2 ^ 31

/-- A field that ends the sequence: length 0 with either flag, `00 00 00 00` or `00 00 00 80` (R88, R129). -/
def sentinel (u : Bool) : ByteSeq := [0x00, 0x00, 0x00, if u then 0x80 else 0x00]

/-- The payloads of a run in order. -/
def payloadOf (recs : List (ByteSeq × Bool)) : ByteSeq := recs.flatMap (fun r => r.1)

/-- The conjunction of the flags of a run, true of the empty run (R130). -/
def allUncompressed (recs : List (ByteSeq × Bool)) : Bool := recs.all (fun r => r.2)

/-- The status registers are legal (R25, R26): bits 7:2 of `STATUS` read 0; `STATUS.ERR` is set exactly when `ERR` holds a
kind, and only after a command completed; `ERR` never holds 0x0A to 0xFF. -/
structure State.StatusLegal (s : State) : Prop where
  reserved_zero : s.status.extractLsb' 2 6 = 0
  err_iff : s.errFlag = true ↔ s.err ≠ 0
  err_done : s.errFlag = true → s.doneFlag = true
  err_range : s.err.toNat ≤ 9

/-- The header registers hold nothing yet, or a header whose checksum byte is right: they are written together and only by
a successful header decode (R27, R106). -/
def State.HeaderLegal (p : Params) (s : State) : Prop :=
  (s.hdrFlg = 0 ∧ s.hdrBd = 0 ∧ s.hdrCsize = 0 ∧ s.hdrHc = 0) ∨
    s.hdrHc = headerChecksum p (descriptorBytes s.hdrFlg s.hdrBd s.hdrCsize)

/-- Until a command has completed, the registers only commands write are as reset left them (R22, R25, R34). -/
def State.FreshUntilDone (s : State) : Prop :=
  s.doneFlag = false →
    s.cmd = 0 ∧ s.err = 0 ∧ s.res0 = 0 ∧ s.res1 = 0 ∧
      s.hdrFlg = 0 ∧ s.hdrBd = 0 ∧ s.hdrCsize = 0 ∧ s.hdrHc = 0

/-- The invariant of the machine at the parameters `p`. -/
structure State.Inv (p : Params) (s : State) : Prop where
  status : s.StatusLegal
  memory : s.mem.wf p = true
  header : s.HeaderLegal p
  fresh : s.FreshUntilDone

end Sys2Proof.Machine
end

