-- ==== Sys2Proof/Certificates/Slice0/Obligations.lean ====
section
/-! DEFINITION. The statements about the LFF frame codec. `commandWith p i s` is the state after command `i` at the
parameters `p`; `exec` is the case `p = params`. A statement over every `p` holds of every hash, every raw block codec,
every split policy and every capacity. -/

open Sys2Proof Sys2Proof.Machine

/-! ## Reset and the invariant -/

/-- R34: at power-on, and when the reset input is asserted whatever the state, every register reads 0 and every buffer is
empty. -/
def Obligations.ResetClearsRegistersAndBuffers : Prop :=
  (∀ r : Reg, State.reset.readReg r = 0) ∧
  (∀ b : BufName, State.reset.mem.buf b = []) ∧
  ∀ (s : State) (rest : List HostAction), s.host = .reset :: rest →
    ∃ t, step s = .next t ∧ (∀ r : Reg, t.readReg r = 0) ∧ ∀ b : BufName, t.mem.buf b = []

/-- The reset state meets the invariant `State.Inv`, at any parameters. -/
def Obligations.ResetMeetsInvariant : Prop := ∀ p : Params, State.reset.Inv p

/-- Every step that answers a next state keeps `State.Inv`: the status registers stay legal (R25, R26), no buffer exceeds
its capacity (R31, R33), the header registers hold nothing or a header whose checksum byte is right (R27, R106), and the
registers only commands write are untouched until a command completes (R22, R34). -/
def Obligations.StepKeepsInvariant : Prop :=
  ∀ s t : State, s.Inv params → step s = .next t → t.Inv params

/-! ## Command codes and the host port -/

/-- R71: the eleven command codes. -/
def Obligations.CommandCodesSelectCommands : Prop :=
  decode 0x01 = .ok .bscSel ∧ decode 0x02 = .ok .hdrEnc ∧ decode 0x03 = .ok .hdrDec ∧
  decode 0x04 = .ok .bsfEnc ∧ decode 0x05 = .ok .bsfDec ∧ decode 0x06 = .ok .blkWrite ∧
  decode 0x07 = .ok .blkRead ∧ decode 0x08 = .ok .csumGen ∧ decode 0x09 = .ok .csumChk ∧
  decode 0x0A = .ok .frameEnc ∧ decode 0x0B = .ok .frameDec

/-- Decoding and encoding agree on the whole byte: a command's code decodes to it, and a byte that decodes is the code of
what it decodes to, so no byte but the eleven codes of R71 decodes. -/
def Obligations.CommandEncodingRoundTrip : Prop :=
  (∀ i : Instr, i.wf = true → decode (encode i) = .ok i) ∧
  ∀ (code : Byte) (i : Instr), decode code = .ok i → encode i = code

/-- R72: a code that selects no command ends at once with `IllegalCommand`; nothing but `STATUS` and `ERR` changes, beside
`CMD`, which holds the value the host wrote, and the action taken off the host's pending ones. -/
def Obligations.UnassignedCodesAreIllegal : Prop :=
  ∀ (s : State) (code : Byte) (rest : List HostAction),
    s.host = .write .cmd (code.setWidth 64) :: rest → (code = 0x00 ∨ 0x0C ≤ code.toNat) →
    step s = .next { s with cmd := code, host := rest, status := 0x03, err := 0x08 }

/-- A step whose host action writes the code of a command to `CMD` is `exec` of that command, with `CMD` holding the code
(R22) and the action taken off the pending ones: the command is one transition (R58). -/
def Obligations.StepRunsDecodedCommand : Prop :=
  ∀ (s : State) (code : Byte) (i : Instr) (rest : List HostAction),
    s.host = .write .cmd (code.setWidth 64) :: rest → decode code = .ok i →
    step s = exec i { s with cmd := code, host := rest }

/-- R58, R21, R161: every command answers a next state, the one the command leaves at the modelled block's parameters. The
statements about `commandWith p` reach `exec` through this one. -/
def Obligations.ExecIsCommandAtParams : Prop :=
  ∀ (i : Instr) (s : State), exec i s = .next (commandWith params i s)

/-- The model's choice (log entry 11): a 64-bit value written to `CMD` counts by its low 8 bits, whatever they select. -/
def Obligations.CommandWriteTakesLowByte : Prop :=
  ∀ (s : State) (v : Word64),
    hostAct (.write .cmd v) s = hostAct (.write .cmd ((v.setWidth 8).setWidth 64)) s

/-- R22, the host's columns: a write to `ARG0`, `ARG1` or `OFF` sets that register and nothing else; a write to any other
register but `CMD` is ignored. -/
def Obligations.HostWritesOnlyWritableRegisters : Prop :=
  ∀ (s : State) (r : Reg) (v : Word64) (rest : List HostAction), s.host = .write r v :: rest → r ≠ .cmd →
    step s = .next
      (if r = .arg0 then { s with arg0 := v, host := rest }
       else if r = .arg1 then { s with arg1 := v, host := rest }
       else if r = .off then { s with off := v, host := rest }
       else { s with host := rest })

/-- R31: a load that fits replaces the buffer and sets its length register; no other host action but a command or a reset
changes a byte of a buffer; a longer load is no move the host has, and the machine stops. -/
def Obligations.HostChangesBuffersOnlyByLoading : Prop :=
  ∀ (s : State) (a : HostAction) (rest : List HostAction), s.host = a :: rest →
    (∀ b bytes, a = .load b bytes →
      (bytes.length ≤ params.cap b → ∃ t, step s = .next t ∧ t.mem.buf b = bytes ∧
        (∀ b', b' ≠ b → t.mem.buf b' = s.mem.buf b') ∧
        t.clen = BitVec.ofNat 64 t.mem.cont.length ∧ t.plen = BitVec.ofNat 64 t.mem.payl.length ∧
        t.flen = BitVec.ofNat 64 t.mem.fram.length ∧
        (∀ r, r ≠ .clen → r ≠ .plen → r ≠ .flen → t.readReg r = s.readReg r)) ∧
      (params.cap b < bytes.length → step s = .fault .loadOverCapacity)) ∧
    ((∀ v, a ≠ .write .cmd v) → (∀ b bytes, a ≠ .load b bytes) → a ≠ .reset →
      ∃ t, step s = .next t ∧ ∀ (b : BufName) (off : Nat), t.mem.byte b off = s.mem.byte b off)

/-- R57, R22, R31: a register read returns the register's value, a buffer read the buffer's bytes, and neither changes a
register or a byte of a buffer; `MOV` is the read followed by a write of the value read (R75). Four things here are the
model's choice, not the spec's: what a read returned is kept in the field `bus` (log entry 3); a narrow register reads
zero-extended to 64 bits (log entry 12); the write of a `MOV` becomes the oldest pending action and takes a step of its own
(log entry 14); and a step with no action pending changes nothing (log entry 1). -/
def Obligations.HostReadsHaveNoSideEffect : Prop :=
  ∀ (s : State) (rest : List HostAction),
    (∀ r, s.host = .get r :: rest →
      step s = .next { s with host := rest, bus := some (.word (s.readReg r)) }) ∧
    (∀ b, s.host = .read b :: rest →
      step s = .next { s with host := rest, bus := some (.bytes (s.mem.buf b)) }) ∧
    (∀ src dst, s.host = .mov src dst :: rest →
      step s = .next { s with host := .write dst (s.readReg src) :: rest, bus := some (.word (s.readReg src)) }) ∧
    (s.host = [] → step s = .next s)

/-! ## The commit of a command -/

/-- R176: a command that succeeds leaves `STATUS = DONE` and `ERR = 0`; one that raises an error kind changes `STATUS` and
`ERR` and nothing else. Stated of every command in every state. -/
def Obligations.FailedCommandChangesOnlyStatusAndErr : Prop :=
  ∀ (i : Instr) (s : State), ∃ t, exec i s = .next t ∧
    ((t.status = 0x01 ∧ t.err = 0x00) ∨ ∃ k : ErrKind, t = { s with status := 0x03, err := k.code })

/-- R171, the column "raised by": which error codes each command can leave. -/
def Obligations.CommandsRaiseOnlyTheirErrorKinds : Prop :=
  ∀ (p : Params) (i : Instr) (s : State), (commandWith p i s).errFlag = true →
    (commandWith p i s).err ∈
      (match i with
       | .bscSel => []
       | .hdrEnc => [0x09]
       | .hdrDec => [0x01, 0x02, 0x05]
       | .bsfEnc => [0x07, 0x09]
       | .bsfDec => [0x05]
       | .blkWrite => [0x07, 0x09]
       | .blkRead => [0x05, 0x09]
       | .csumGen => [0x09]
       | .csumChk => [0x03, 0x05]
       | .frameEnc => [0x06, 0x09]
       | .frameDec => [0x01, 0x02, 0x03, 0x04, 0x05, 0x09] : List Byte)

/-- R22, the column "written by the block", and R23: the registers a command leaves as they were. `CMD`, `ARG0` and `ARG1`
are written by no command; the length registers follow their buffers. -/
def Obligations.CommandsWriteOnlyTheirRegisters : Prop :=
  ∀ (p : Params) (i : Instr) (s : State) (r : Reg),
    r ∉ (match i with
         | .bscSel => [.status, .err, .res0, .res1]
         | .hdrEnc => [.status, .err, .res0, .res1, .flen]
         | .hdrDec => [.status, .err, .off, .hdrFlg, .hdrBd, .hdrCsize, .hdrHc]
         | .bsfEnc => [.status, .err, .res0, .flen]
         | .bsfDec => [.status, .err, .res0, .res1]
         | .blkWrite => [.status, .err, .res0, .flen]
         | .blkRead => [.status, .err, .res0, .res1, .off, .plen]
         | .csumGen => [.status, .err, .res0, .flen]
         | .csumChk => [.status, .err, .res0]
         | .frameEnc => [.status, .err, .res0, .res1, .plen, .flen]
         | .frameDec => [.status, .err, .res0, .res1, .off, .clen, .plen, .hdrFlg, .hdrBd, .hdrCsize, .hdrHc] :
           List Reg) →
    (commandWith p i s).readReg r = s.readReg r

/-- R32, the column "writes": every byte of a buffer that a command does not write reads as before; the host's side is
untouched as well. -/
def Obligations.CommandsWriteOnlyTheirBuffers : Prop :=
  ∀ (p : Params) (i : Instr) (s : State),
    (∀ (b : BufName) (off : Nat),
      b ∉ (match i with
           | .bscSel => []
           | .hdrEnc => [.fram]
           | .hdrDec => []
           | .bsfEnc => [.fram]
           | .bsfDec => []
           | .blkWrite => [.fram]
           | .blkRead => [.payl]
           | .csumGen => [.fram]
           | .csumChk => []
           | .frameEnc => [.payl, .fram]
           | .frameDec => [.payl, .cont] : List BufName) →
      (commandWith p i s).mem.byte b off = s.mem.byte b off) ∧
    (commandWith p i s).host = s.host ∧ (commandWith p i s).bus = s.bus

/-- R178: an error is not sticky. What a command does depends on the earlier `STATUS` and `ERR` not at all, and its own
completion overwrites both. -/
def Obligations.ErrorsAreNotSticky : Prop :=
  ∀ (i : Instr) (s : State) (status err : Byte),
    exec i { s with status := status, err := err } = exec i s

/-- R191, R74, R32: two states that agree on the operands a command reads give the same status, the same error code and,
on success, the same results; whatever else they hold. -/
def Obligations.ResultsDependOnlyOnOperands : Prop :=
  ∀ (p : Params) (i : Instr) (s s' : State),
    (match i with
     | .bscSel => s.arg0 = s'.arg0
     | .hdrEnc => s.arg0 = s'.arg0 ∧ s.arg1 = s'.arg1
     | .hdrDec => s.mem.fram = s'.mem.fram
     | .bsfEnc => s.arg0 = s'.arg0 ∧ s.arg1 = s'.arg1
     | .bsfDec => s.off = s'.off ∧ s.mem.fram = s'.mem.fram
     | .blkWrite => s.arg0 = s'.arg0 ∧ s.arg1 = s'.arg1 ∧ s.mem.payl = s'.mem.payl
     | .blkRead => s.off = s'.off ∧ s.mem.fram = s'.mem.fram
     | .csumGen => s.mem.cont = s'.mem.cont
     | .csumChk => s.off = s'.off ∧ s.mem.cont = s'.mem.cont ∧ s.mem.fram = s'.mem.fram
     | .frameEnc => s.mem.cont = s'.mem.cont
     | .frameDec => s.mem.fram = s'.mem.fram) →
    let t := commandWith p i s
    let t' := commandWith p i s'
    t.status = t'.status ∧ t.err = t'.err ∧
    (t.errFlag = false →
      (match i with
       | .bscSel => t.res0 = t'.res0 ∧ t.res1 = t'.res1
       | .hdrEnc => t.res0 = t'.res0 ∧ t.res1 = t'.res1 ∧ t.mem.fram = t'.mem.fram
       | .hdrDec => t.off = t'.off ∧ t.hdrFlg = t'.hdrFlg ∧ t.hdrBd = t'.hdrBd ∧ t.hdrCsize = t'.hdrCsize ∧
           t.hdrHc = t'.hdrHc
       | .bsfEnc => t.res0 = t'.res0 ∧ t.mem.fram = t'.mem.fram
       | .bsfDec => t.res0 = t'.res0 ∧ t.res1 = t'.res1
       | .blkWrite => t.res0 = t'.res0 ∧ t.mem.fram = t'.mem.fram
       | .blkRead => t.res0 = t'.res0 ∧ t.res1 = t'.res1 ∧ t.off = t'.off ∧ t.mem.payl = t'.mem.payl
       | .csumGen => t.res0 = t'.res0 ∧ t.mem.fram = t'.mem.fram
       | .csumChk => t.res0 = t'.res0
       | .frameEnc => t.res0 = t'.res0 ∧ t.res1 = t'.res1 ∧ t.mem.payl = t'.mem.payl ∧ t.mem.fram = t'.mem.fram
       | .frameDec => t.res0 = t'.res0 ∧ t.res1 = t'.res1 ∧ t.off = t'.off ∧ t.mem.payl = t'.mem.payl ∧
           t.mem.cont = t'.mem.cont ∧ t.hdrFlg = t'.hdrFlg ∧ t.hdrBd = t'.hdrBd ∧ t.hdrCsize = t'.hdrCsize ∧
           t.hdrHc = t'.hdrHc))

/-- R175: `CapacityExceeded` is checked last and masks no other kind. A command that raises another kind raises the same
kind at any other capacities; one that raises `CapacityExceeded` succeeds at some larger ones. -/
def Obligations.CapacityIsCheckedLast : Prop :=
  ∀ (p : Params) (i : Instr) (s : State) (k : ErrKind), runCommand p i s = .error k →
    (k ≠ .capacityExceeded → ∀ cc cp cf : Nat,
      runCommand { p with capCont := cc, capPayl := cp, capFram := cf } i s = .error k) ∧
    (k = .capacityExceeded → ∃ cap : Nat,
      (commandWith { p with capCont := cap, capPayl := cap, capFram := cap } i s).errFlag = false)

/-- R24: every value a command writes to `OFF` is at most `FLEN`: after a successful `HDR_DEC`, `BLK_READ` or `FRAME_DEC`
the cursor is within `FRAM`. -/
def Obligations.CursorStaysWithinFram : Prop :=
  ∀ (p : Params) (i : Instr) (s : State), p.wf = true → s.mem.wf p = true →
    i ∈ [Instr.hdrDec, .blkRead, .frameDec] → (commandWith p i s).errFlag = false →
    (commandWith p i s).off.toNat ≤ (commandWith p i s).mem.fram.length

/-! ## Frame-header codec -/

/-- R101 with R100: `BSC_SEL` completes in every state with the class code and the class maximum of `ARG0`, thresholds
exclusive; nothing else changes. -/
def Obligations.BscSelSelectsClass : Prop :=
  ∀ s : State, exec .bscSel s = .next
    { s with
      res0 := params.classCode (if s.arg0.toNat < 64000 then .k0 else if s.arg0.toNat < 256000 then .k1
              else if s.arg0.toNat < 1000000 then .k2 else .k3)
      res1 := if s.arg0.toNat < 64000 then 64000 else if s.arg0.toNat < 256000 then 256000
              else if s.arg0.toNat < 1000000 then 1000000 else 4000000
      status := 0x01
      err := 0x00 }

/-- R104 with R102, R103, R105: `HDR_ENC` completes in every state: `FRAM` is the magic number, the flags byte (the
independence bit by the inequality alone), the descriptor of the payload length's class, the original length, and bits 15:8
of the hash of those ten bytes; nothing else changes. At a capacity below 15 it raises `CapacityExceeded`. -/
def Obligations.HdrEncWritesHeader : Prop :=
  (∀ s : State,
    let k : SizeClass := if s.arg1.toNat < 64000 then .k0 else if s.arg1.toNat < 256000 then .k1
      else if s.arg1.toNat < 1000000 then .k2 else .k3
    let flg : Byte := params.flgBase ||| ((if s.arg1.toNat < 4000000 then 1 else 0) : Byte) <<< params.flgIndepBit
    let bd : Byte := params.bdOfClass k
    exec .hdrEnc s = .next
      { s with
        mem := { s.mem with
          fram := [0x04, 0x22, 0x4D, 0x18] ++ (flg :: bd :: le64 s.arg0) ++
            [(Config.hash32 (flg :: bd :: le64 s.arg0)).extractLsb' 8 8] }
        res0 := params.classCode k
        res1 := if s.arg1.toNat < 64000 then 64000 else if s.arg1.toNat < 256000 then 256000
                else if s.arg1.toNat < 1000000 then 1000000 else 4000000
        status := 0x01
        err := 0x00 }) ∧
  ∀ (p : Params) (s : State), p.capFram < 15 →
    commandWith p .hdrEnc s = { s with status := 0x03, err := 0x09 }

/-- The model's choice where the spec gives general knowledge (log entry 5; R79, R80, R81, R10): the fields of the flags
byte the encoder writes at their default positions, and the default codes of the class of the payload length, the same in
bits 6:4 of the descriptor byte and in `RES0`. -/
def Obligations.EncodedFlagsAnnounceTheFixedLayout : Prop :=
  ∀ s : State, ∃ (t : State) (flg bd : Byte), exec .hdrEnc s = .next t ∧ t.mem.byte .fram 4 = some flg ∧
    t.mem.byte .fram 5 = some bd ∧ bd &&& 0x8F = 0 ∧ t.res0 = (bdClassCode bd).setWidth 64 ∧
    t.res0 = (if s.arg1.toNat < 64000 then 4 else if s.arg1.toNat < 256000 then 5
      else if s.arg1.toNat < 1000000 then 6 else 7) ∧
    flgVersion flg = 0b01 ∧ flgBIndep flg = decide (s.arg1.toNat < 4000000) ∧ flgBChecksum flg = false ∧
    flgCSize flg = true ∧ flgCChecksum flg = true ∧ flgReserved flg = false ∧ flgDictId flg = false

/-- R109 with R106, R107, R108: on a `FRAM` that starts with the magic number, any flags and descriptor bytes, any 64-bit
content size and a checksum byte, `HDR_DEC` fills the four header registers and sets `OFF` to 15 when the checksum byte is
bits 15:8 of the hash, and raises `HeaderChecksumMismatch` when it is not; before that, fewer than 4 bytes raise
`TruncatedInput`, another magic number `MagicMismatch`, fewer than 15 bytes `TruncatedInput`. -/
def Obligations.HdrDecDecodesOrReportsFirstError : Prop :=
  ∀ s : State,
    (∀ (flg bd hc : Byte) (csize : Word64) (post : ByteSeq),
      s.mem.fram = [0x04, 0x22, 0x4D, 0x18] ++ (flg :: bd :: le64 csize) ++ hc :: post →
      ((Config.hash32 (flg :: bd :: le64 csize)).extractLsb' 8 8 = hc →
        exec .hdrDec s = .next
          { s with hdrFlg := flg, hdrBd := bd, hdrCsize := csize, hdrHc := hc, off := 15,
                   status := 0x01, err := 0x00 }) ∧
      ((Config.hash32 (flg :: bd :: le64 csize)).extractLsb' 8 8 ≠ hc →
        exec .hdrDec s = .next { s with status := 0x03, err := 0x02 })) ∧
    (s.mem.fram.length < 4 → exec .hdrDec s = .next { s with status := 0x03, err := 0x05 }) ∧
    (4 ≤ s.mem.fram.length → s.mem.fram.take 4 ≠ [0x04, 0x22, 0x4D, 0x18] →
      exec .hdrDec s = .next { s with status := 0x03, err := 0x01 }) ∧
    (s.mem.fram.take 4 = [0x04, 0x22, 0x4D, 0x18] → s.mem.fram.length < 15 →
      exec .hdrDec s = .next { s with status := 0x03, err := 0x05 })

/-- R110: what `HDR_ENC` wrote, `HDR_DEC` reads, for every hash, every original length and every payload length: the
content size is the original length at full width, the flags and descriptor are the encoder's, the checksum byte is that
recomputed from bytes 4 to 13. Bytes that follow the header do not matter. -/
def Obligations.HeaderDecodesToWhatWasEncoded : Prop :=
  ∀ (p : Params) (s : State) (post : ByteSeq), 15 ≤ p.capFram →
    let t := commandWith p .hdrEnc s
    let u := commandWith p .hdrDec { t with mem := { t.mem with fram := t.mem.fram ++ post } }
    u.errFlag = false ∧ u.hdrCsize = s.arg0 ∧ u.hdrFlg = flagsByte p s.arg1.toNat ∧
    u.hdrBd = p.bdOfClass (classOf s.arg1.toNat) ∧
    u.hdrHc = headerChecksum p ((t.mem.fram.drop 4).take 10) ∧ u.off = 15

/-- R111: a header that decodes, with one byte changed: in bytes 0 to 3 `MagicMismatch`, in byte 14
`HeaderChecksumMismatch`, for every hash; in bytes 4 to 13 `HeaderChecksumMismatch` if and only if bits 15:8 of the hash of
the ten bytes change. -/
def Obligations.HeaderTamperIsDetected : Prop :=
  ∀ (p : Params) (s : State) (i : Nat) (b : Byte), (commandWith p .hdrDec s).errFlag = false →
    s.mem.byte .fram i ≠ some b →
    let c := s.mem.fram
    let u := commandWith p .hdrDec { s with mem := { s.mem with fram := c.set i b } }
    (i < 4 → u = { s with mem := { s.mem with fram := c.set i b }, status := 0x03, err := 0x01 }) ∧
    (i = 14 → u = { s with mem := { s.mem with fram := c.set i b }, status := 0x03, err := 0x02 }) ∧
    (4 ≤ i → i < 14 →
      (u.err = 0x02 ↔ headerChecksum p (((c.set i b).drop 4).take 10) ≠ headerChecksum p ((c.drop 4).take 10)))

/-! ## Byte order -/

/-- R16, R53: `LE32` and `LE64` place byte `k` of the word (bits `8k+7:8k`) at offset `k`, assembling inverts them both
ways, and bits 15:8 of a word are the byte at offset 1 (R54). -/
def Obligations.LittleEndianFieldsRoundTrip : Prop :=
  (∀ (w : Word32) (k : Nat), k < 4 → (le32 w)[k]? = some (w.extractLsb' (8 * k) 8)) ∧
  (∀ (w : Word64) (k : Nat), k < 8 → (le64 w)[k]? = some (w.extractLsb' (8 * k) 8)) ∧
  (∀ w : Word32, unle32 (le32 w) = w) ∧ (∀ w : Word64, unle64 (le64 w) = w) ∧
  (∀ f : ByteSeq, f.length = 4 → le32 (unle32 f) = f) ∧ (∀ f : ByteSeq, f.length = 8 → le64 (unle64 f) = f)

/-! ## Block-record codec -/

/-- R121 with R120, R73: `BSF_ENC` with a length below 2^31 and a flag 0 or 1 completes with the four bytes of
`ARG0 | ARG1 << 31` in `FRAM` and that word in `RES0`; another length or another flag raises `BadOperand`, at any
parameters; at a capacity below 4 it raises `CapacityExceeded` after those. -/
def Obligations.BsfEncEncodesSizeField : Prop :=
  (∀ s : State, s.arg0.toNat < 2 ^ 31 → s.arg1.toNat < 2 →
    exec .bsfEnc s = .next
      { s with
        mem := { s.mem with fram := le32 ((s.arg0 ||| s.arg1 <<< 31).setWidth 32) }
        res0 := s.arg0 ||| s.arg1 <<< 31
        status := 0x01
        err := 0x00 }) ∧
  (∀ (p : Params) (s : State), 2 ^ 31 ≤ s.arg0.toNat ∨ 2 ≤ s.arg1.toNat →
    commandWith p .bsfEnc s = { s with status := 0x03, err := 0x07 }) ∧
  ∀ (p : Params) (s : State), s.arg0.toNat < 2 ^ 31 → s.arg1.toNat < 2 → p.capFram < 4 →
    commandWith p .bsfEnc s = { s with status := 0x03, err := 0x09 }

/-- R123 with R122: `BSF_DEC` on the four bytes at `OFF` completes with their low 31 bits in `RES0` and the top bit in
`RES1`; `OFF` is not advanced and the addition does not wrap: without four bytes there it raises `TruncatedInput`. -/
def Obligations.BsfDecDecodesSizeField : Prop :=
  ∀ s : State,
    (∀ (pre post : ByteSeq) (b0 b1 b2 b3 : Byte), s.mem.fram = pre ++ [b0, b1, b2, b3] ++ post →
      s.off.toNat = pre.length →
      exec .bsfDec s = .next
        { s with
          res0 := ((b3 &&& 0x7F) ++ b2 ++ b1 ++ b0).setWidth 64
          res1 := (b3 >>> 7).setWidth 64
          status := 0x01
          err := 0x00 }) ∧
    (s.mem.fram.length < s.off.toNat + 4 → exec .bsfDec s = .next { s with status := 0x03, err := 0x05 })

/-- R122: `DecodeBSF` of four bytes is their low 31 bits and their top bit, and is the inverse of `EncodeBSF`, both ways. -/
def Obligations.SizeFieldRoundTrip : Prop :=
  (∀ b0 b1 b2 b3 : Byte,
    decodeBsf [b0, b1, b2, b3] = (((b3 &&& 0x7F) ++ b2 ++ b1 ++ b0).toNat, b3.getLsbD 7)) ∧
  (∀ (n : Nat) (u : Bool), n < 2 ^ 31 → decodeBsf (encodeBsf n u) = (n, u)) ∧
  ∀ f : ByteSeq, f.length = 4 → (decodeBsf f).1 < 2 ^ 31 ∧ encodeBsf (decodeBsf f).1 (decodeBsf f).2 = f

/-- R124: the ranges of `Split(P, m)` and their number, under both policies: range `i` starts at `i*m` and holds what is
left there, at most `m`. Under `ceil` there are `ceil(P / m)` ranges; under `reference` one more than `P div m` unless
the payload is empty. -/
def Obligations.SplitListsTheRanges : Prop :=
  ∀ (pol : SplitPolicy) (n m : Nat), 1 ≤ m →
    (∀ (i : Nat) (r : Nat × Nat), (split pol n m)[i]? = some r → r = (i * m, min m (n - i * m))) ∧
    (split pol n m).length =
      (match pol with
       | .ceil => (n + m - 1) / m
       | .reference => if n = 0 then 0 else n / m + 1)

/-- R125: under either policy the ranges are contiguous from 0, cover the payload exactly, and are at most `m` long; under
`ceil` none is empty. -/
def Obligations.SplitCoversThePayload : Prop :=
  ∀ (pol : SplitPolicy) (payload : ByteSeq) (m : Nat), 1 ≤ m →
    (split pol payload.length m).flatMap (fun r => slice payload r.1 r.2) = payload ∧
    (∀ r ∈ split pol payload.length m, r.1 + r.2 ≤ payload.length ∧ r.2 ≤ m) ∧
    (pol = .ceil → ∀ r ∈ split pol payload.length m, 1 ≤ r.2)

/-- R126 with R124, R120: the length of what `WriteBlocks` lays out, and what that is: the EndMark alone for an empty payload; a full record first and then
the rest for a longer payload; one record for a payload no longer than the maximum, under `reference` followed by a
zero-length record when it is exactly the maximum. -/
def Obligations.WriteBlocksLaysOutRecords : Prop :=
  ∀ (pol : SplitPolicy) (payload : ByteSeq) (m : Nat) (u : Bool), 1 ≤ m →
    (writeBlocks pol payload m u).length = payload.length + 4 * (split pol payload.length m).length + 4 ∧
    writeBlocks pol payload m u =
      if payload = [] then [0x00, 0x00, 0x00, 0x00]
      else if m < payload.length then
        encodeBsf m u ++ payload.take m ++ writeBlocks pol (payload.drop m) m u
      else if payload.length = m ∧ pol = .reference then
        encodeBsf m u ++ payload ++ encodeBsf 0 u ++ [0x00, 0x00, 0x00, 0x00]
      else encodeBsf payload.length u ++ payload ++ [0x00, 0x00, 0x00, 0x00]

/-- R127 with R126: `BLK_WRITE` with a maximum in `1 .. 2^31 - 1` and a flag 0 or 1, when the records fit `FRAM`, completes
with them in `FRAM` (`PLEN + 4*b + 4` bytes) and their number `b` in `RES0`, which under `ceil`, the modelled block's
policy, is `ceil(PLEN / ARG0)`; at any parameters another maximum or flag raises `BadOperand`, and a capacity that the
records exceed raises `CapacityExceeded` after those. -/
def Obligations.BlkWriteWritesRecords : Prop :=
  (∀ s : State,
    let m := s.arg0.toNat
    let b := (s.mem.payl.length + m - 1) / m
    1 ≤ m → m < 2 ^ 31 → s.arg1.toNat < 2 → s.mem.payl.length + 4 * b + 4 < 2 ^ 64 →
      exec .blkWrite s = .next
        { s with
          mem := { s.mem with fram := writeBlocks .ceil s.mem.payl m (s.arg1 == 1) }
          res0 := BitVec.ofNat 64 b
          status := 0x01
          err := 0x00 } ∧
      (writeBlocks .ceil s.mem.payl m (s.arg1 == 1)).length = s.mem.payl.length + 4 * b + 4) ∧
  ∀ (p : Params) (s : State),
    let m := s.arg0.toNat
    let out := writeBlocks p.splitPolicy s.mem.payl m (s.arg1 == 1)
    (m = 0 ∨ 2 ^ 31 ≤ m ∨ 2 ≤ s.arg1.toNat → commandWith p .blkWrite s = { s with status := 0x03, err := 0x07 }) ∧
    (1 ≤ m → m < 2 ^ 31 → s.arg1.toNat < 2 →
      (out.length ≤ p.capFram → commandWith p .blkWrite s =
        { s with
          mem := { s.mem with fram := out }
          res0 := BitVec.ofNat 64 (split p.splitPolicy s.mem.payl.length m).length
          status := 0x01
          err := 0x00 }) ∧
      (p.capFram < out.length → commandWith p .blkWrite s = { s with status := 0x03, err := 0x09 }))

/-- R131 with R128, R129, R130, R134: `BLK_READ` completes exactly on a run of records from `OFF` that a zero-length field
(either flag) ends: the payload is the concatenation, `RES0` the count, `RES1` the conjunction of the flags (true of the
empty run), `OFF` just after the sentinel; no block length is checked against a class. Without such a run it raises
`TruncatedInput`, at any parameters; with one that does not fit `PAYL` it raises `CapacityExceeded`. -/
def Obligations.BlkReadReadsRunOfRecords : Prop :=
  (∀ (s : State) (pre post : ByteSeq) (recs : List (ByteSeq × Bool)) (u : Bool), RecordsLegal recs →
    s.mem.fram = pre ++ records recs ++ sentinel u ++ post → s.off.toNat = pre.length →
    s.mem.wf params = true →
    exec .blkRead s = .next
      { s with
        mem := { s.mem with payl := payloadOf recs }
        res0 := BitVec.ofNat 64 recs.length
        res1 := if allUncompressed recs then 1 else 0
        off := BitVec.ofNat 64 (pre.length + (records recs).length + 4)
        status := 0x01
        err := 0x00 }) ∧
  (∀ (p : Params) (s : State),
    (¬ ∃ (pre post : ByteSeq) (recs : List (ByteSeq × Bool)) (u : Bool), RecordsLegal recs ∧
      s.mem.fram = pre ++ records recs ++ sentinel u ++ post ∧ s.off.toNat = pre.length) →
    commandWith p .blkRead s = { s with status := 0x03, err := 0x05 }) ∧
  ∀ (p : Params) (s : State) (pre post : ByteSeq) (recs : List (ByteSeq × Bool)) (u : Bool), RecordsLegal recs →
    s.mem.fram = pre ++ records recs ++ sentinel u ++ post → s.off.toNat = pre.length →
    p.capPayl < (payloadOf recs).length →
    commandWith p .blkRead s = { s with status := 0x03, err := 0x09 }

/-- R132: the reader's loop ends within `|c| / 5 + 1` turns: allowing it more turns changes no answer, from any offset. -/
def Obligations.ReaderNeedsNoMoreTurns : Prop :=
  ∀ (c : ByteSeq) (o turns : Nat), c.length / 5 + 1 ≤ turns →
    readBlocksLoop c turns o [] true 0 = readBlocks c o

/-- R133: reading what was written gives the payload back, wherever it stands in a container: under `ceil` always; under
`reference` the payload is whole, but for a nonzero multiple of the maximum the reader stops four bytes early, and only
then. -/
def Obligations.ReadBlocksInvertsWriteBlocks : Prop :=
  ∀ (pol : SplitPolicy) (payload pre post : ByteSeq) (m : Nat) (u : Bool), 1 ≤ m → m < 2 ^ 31 →
    readBlocks (pre ++ writeBlocks pol payload m u ++ post) pre.length =
      .ok { payload := payload
            allUnc := if payload = [] then true else u
            newOffset := pre.length + (writeBlocks pol payload m u).length
              - (if pol = .reference ∧ payload ≠ [] ∧ payload.length % m = 0 then 4 else 0)
            count := (payload.length + m - 1) / m }

/-! ## Frame checksum validator -/

/-- R142 with R141: `CSUM_GEN` completes in every state with the hash of the content, little-endian, in `FRAM` and in
`RES0`; at a capacity below 4 it raises `CapacityExceeded`. -/
def Obligations.CsumGenWritesContentHash : Prop :=
  (∀ s : State, exec .csumGen s = .next
    { s with
      mem := { s.mem with
        fram := [(Config.hash32 s.mem.cont).extractLsb' 0 8, (Config.hash32 s.mem.cont).extractLsb' 8 8,
          (Config.hash32 s.mem.cont).extractLsb' 16 8, (Config.hash32 s.mem.cont).extractLsb' 24 8] }
      res0 := (Config.hash32 s.mem.cont).setWidth 64
      status := 0x01
      err := 0x00 }) ∧
  ∀ (p : Params) (s : State), p.capFram < 4 →
    commandWith p .csumGen s = { s with status := 0x03, err := 0x09 }

/-- R143: `CSUM_CHK` compares all 32 bits of the four bytes at `OFF` with the content's hash: equal, it completes with the
hash in `RES0` and `OFF` where it was; different, it raises `ContentChecksumMismatch`; without four bytes there,
`TruncatedInput`, which comes first. -/
def Obligations.CsumChkComparesStoredHash : Prop :=
  ∀ s : State,
    (∀ (pre post : ByteSeq) (b0 b1 b2 b3 : Byte), s.mem.fram = pre ++ [b0, b1, b2, b3] ++ post →
      s.off.toNat = pre.length →
      (Config.hash32 s.mem.cont = b3 ++ b2 ++ b1 ++ b0 →
        exec .csumChk s = .next
          { s with res0 := (Config.hash32 s.mem.cont).setWidth 64, status := 0x01, err := 0x00 }) ∧
      (Config.hash32 s.mem.cont ≠ b3 ++ b2 ++ b1 ++ b0 →
        exec .csumChk s = .next { s with status := 0x03, err := 0x03 })) ∧
    (s.mem.fram.length < s.off.toNat + 4 → exec .csumChk s = .next { s with status := 0x03, err := 0x05 })

/-- R144: for every hash, `CSUM_CHK` accepts what `CSUM_GEN` produced, and refuses it with `ContentChecksumMismatch` when
any one of the four bytes is changed. -/
def Obligations.CsumChkAcceptsExactlyWhatCsumGenWrote : Prop :=
  ∀ (p : Params) (s : State), 4 ≤ p.capFram →
    let t := commandWith p .csumGen s
    (commandWith p .csumChk { t with off := 0 }).errFlag = false ∧
    ∀ (i : Nat) (b : Byte), i < 4 → t.mem.byte .fram i ≠ some b →
      (commandWith p .csumChk { t with off := 0, mem := { t.mem with fram := t.mem.fram.set i b } }).err = 0x03

/-! ## Frame-level commands -/

/-- R154 with R150, R152, R153: `FRAME_ENC` answers in every state. When the compressor fails it raises
`CompressionFailed`. Otherwise the payload is the candidate, or the content itself when the candidate is strictly longer;
the container is the header (content size from the content, class from the payload), the records with that class's maximum
and the one stored flag, the EndMark, and the content's hash; when payload and container fit their buffers it completes
with both, the block count and the stored flag, and nothing else changed. -/
def Obligations.FrameEncBuildsContainer : Prop :=
  ∀ s : State, exec .frameEnc s = .next
    (match Config.compress s.mem.cont with
     | none => { s with status := 0x03, err := 0x06 }
     | some c =>
       let x := s.mem.cont
       let stored : Bool := decide (x.length < c.length)
       let pl := if stored then x else c
       let m := if pl.length < 64000 then 64000 else if pl.length < 256000 then 256000
         else if pl.length < 1000000 then 1000000 else 4000000
       let b := (pl.length + m - 1) / m
       let f := encodeHeader params (BitVec.ofNat 64 x.length) pl.length ++ writeBlocks .ceil pl m stored ++
         le32 (Config.hash32 x)
       if pl.length < 2 ^ 64 ∧ pl.length + 4 * b + 23 < 2 ^ 64 then
         { s with
           mem := { s.mem with payl := pl, fram := f }
           res0 := BitVec.ofNat 64 b
           res1 := if stored then 1 else 0
           status := 0x01
           err := 0x00 }
       else { s with status := 0x03, err := 0x09 })

/-- R154, R174 at any parameters: `FRAME_ENC` succeeds whenever the compressor answers and the results fit; there is no
other failure of encoding. -/
def Obligations.FrameEncFailsOnlyWithCompressorOrCapacity : Prop :=
  ∀ (p : Params) (s : State),
    (p.compress s.mem.cont = none → commandWith p .frameEnc s = { s with status := 0x03, err := 0x06 }) ∧
    (∀ c, p.compress s.mem.cont = some c →
      let e := assembleFrame p s.mem.cont c
      (e.payload.length ≤ p.capPayl → e.container.length ≤ p.capFram →
        commandWith p .frameEnc s =
          { s with
            mem := { s.mem with payl := e.payload, fram := e.container }
            res0 := BitVec.ofNat 64 e.blocks
            res1 := if e.stored then 1 else 0
            status := 0x01
            err := 0x00 }) ∧
      (p.capPayl < e.payload.length ∨ p.capFram < e.container.length →
        commandWith p .frameEnc s = { s with status := 0x03, err := 0x09 }))

/-- R89: the length of the container that `FRAME_ENC` writes: the payload's, four per block, and 23. -/
def Obligations.ContainerLength : Prop :=
  ∀ (p : Params) (s : State), p.wf = true → (commandWith p .frameEnc s).errFlag = false →
    let t := commandWith p .frameEnc s
    t.mem.fram.length = t.mem.payl.length + 4 * t.res0.toNat + 23

/-- R156 with R155, the stored path: `FRAME_DEC` on a header that decodes, a run of records all flagged uncompressed, a
sentinel, the hash of the payload, and anything after it, completes: the content is the payload, with no call of the
decompressor and no comparison of its length with the content size; `OFF` is just after the checksum (R157). -/
def Obligations.FrameDecRecoversStoredFrame : Prop :=
  ∀ (s : State) (flg bd : Byte) (csize : Word64) (recs : List (ByteSeq × Bool)) (u : Bool) (post : ByteSeq),
    RecordsLegal recs → allUncompressed recs = true → s.mem.wf params = true →
    s.mem.fram = [0x04, 0x22, 0x4D, 0x18] ++ (flg :: bd :: le64 csize) ++
      [(Config.hash32 (flg :: bd :: le64 csize)).extractLsb' 8 8] ++ records recs ++ sentinel u ++
      le32 (Config.hash32 (payloadOf recs)) ++ post →
    exec .frameDec s = .next
      { s with
        hdrFlg := flg
        hdrBd := bd
        hdrCsize := csize
        hdrHc := (Config.hash32 (flg :: bd :: le64 csize)).extractLsb' 8 8
        mem := { s.mem with payl := payloadOf recs, cont := payloadOf recs }
        res0 := BitVec.ofNat 64 recs.length
        res1 := 1
        off := BitVec.ofNat 64 ((records recs).length + 23)
        status := 0x01
        err := 0x00 }

/-- R156 with R155, R173, the checks of the stored path, at any parameters: fewer than four bytes after the sentinel raise
`TruncatedInput`, four bytes that are not the hash of the payload `ContentChecksumMismatch`, and a payload that does not
fit `PAYL` or `CONT` raises `CapacityExceeded` after these. -/
def Obligations.FrameDecChecksStoredFrame : Prop :=
  ∀ (p : Params) (s : State) (flg bd : Byte) (csize : Word64) (recs : List (ByteSeq × Bool)) (u : Bool)
    (rest : ByteSeq),
    RecordsLegal recs → allUncompressed recs = true →
    s.mem.fram = [0x04, 0x22, 0x4D, 0x18] ++ (flg :: bd :: le64 csize) ++
      [(p.hash32 (flg :: bd :: le64 csize)).extractLsb' 8 8] ++ records recs ++ sentinel u ++ rest →
    (rest.length < 4 → commandWith p .frameDec s = { s with status := 0x03, err := 0x05 }) ∧
    (4 ≤ rest.length → rest.take 4 ≠ le32 (p.hash32 (payloadOf recs)) →
      commandWith p .frameDec s = { s with status := 0x03, err := 0x03 }) ∧
    (∀ post, rest = le32 (p.hash32 (payloadOf recs)) ++ post →
      p.capPayl < (payloadOf recs).length ∨ p.capCont < (payloadOf recs).length →
      commandWith p .frameDec s = { s with status := 0x03, err := 0x09 })

/-- R156 with R155, R151, the compressed path, at any parameters: a header that decodes, a run of records not all flagged
uncompressed, a sentinel and four bytes. The whole payload goes to the decompressor with its length and the content size;
an answer of exactly that length whose hash is the stored one is the content. No answer, or another length, raises
`DecompressionFailed`, whether or not the checksum is there; another hash raises `ContentChecksumMismatch`; a payload or a
content that does not fit its buffer raises `CapacityExceeded` after all of these. -/
def Obligations.FrameDecDecompressesPayload : Prop :=
  ∀ (p : Params) (s : State) (flg bd : Byte) (csize : Word64) (recs : List (ByteSeq × Bool)) (u : Bool)
    (rest : ByteSeq),
    RecordsLegal recs → allUncompressed recs = false →
    s.mem.fram = [0x04, 0x22, 0x4D, 0x18] ++ (flg :: bd :: le64 csize) ++
      [(p.hash32 (flg :: bd :: le64 csize)).extractLsb' 8 8] ++ records recs ++ sentinel u ++ rest →
    (∀ y, p.decompress (payloadOf recs) (payloadOf recs).length csize.toNat = some y → y.length = csize.toNat →
      (∀ post, rest = le32 (p.hash32 y) ++ post → (payloadOf recs).length ≤ p.capPayl → y.length ≤ p.capCont →
        commandWith p .frameDec s =
          { s with
            hdrFlg := flg
            hdrBd := bd
            hdrCsize := csize
            hdrHc := (p.hash32 (flg :: bd :: le64 csize)).extractLsb' 8 8
            mem := { s.mem with payl := payloadOf recs, cont := y }
            res0 := BitVec.ofNat 64 recs.length
            res1 := 0
            off := BitVec.ofNat 64 ((records recs).length + 23)
            status := 0x01
            err := 0x00 }) ∧
      (∀ post, rest = le32 (p.hash32 y) ++ post → p.capPayl < (payloadOf recs).length ∨ p.capCont < y.length →
        commandWith p .frameDec s = { s with status := 0x03, err := 0x09 }) ∧
      (rest.length < 4 → commandWith p .frameDec s = { s with status := 0x03, err := 0x05 }) ∧
      (4 ≤ rest.length → rest.take 4 ≠ le32 (p.hash32 y) →
        commandWith p .frameDec s = { s with status := 0x03, err := 0x03 })) ∧
    ((∀ y, p.decompress (payloadOf recs) (payloadOf recs).length csize.toNat = some y → y.length ≠ csize.toNat) →
      commandWith p .frameDec s = { s with status := 0x03, err := 0x04 })

/-- R177, the head of the `FRAME_DEC` row, at any parameters: an error of `HDR_DEC` on the same `FRAM` is the error of
`FRAME_DEC`; with a header that decodes, an error of the record reader from offset 15 is `TruncatedInput`. Nothing but
`STATUS` and `ERR` changes, even when the header was valid. -/
def Obligations.FrameDecReportsHeaderThenBlockErrors : Prop :=
  ∀ (p : Params) (s : State),
    ((commandWith p .hdrDec s).errFlag = true → commandWith p .frameDec s = commandWith p .hdrDec s) ∧
    ((commandWith p .hdrDec s).errFlag = false →
      (¬ ∃ (hdr post : ByteSeq) (recs : List (ByteSeq × Bool)) (u : Bool), RecordsLegal recs ∧
        s.mem.fram = hdr ++ records recs ++ sentinel u ++ post ∧ hdr.length = 15) →
      commandWith p .frameDec s = { s with status := 0x03, err := 0x05 })

/-- R157: bytes after the content checksum do not affect a successful `FRAME_DEC`. -/
def Obligations.TrailingBytesAreNotRead : Prop :=
  ∀ (p : Params) (s : State) (post : ByteSeq), (commandWith p .frameDec s).errFlag = false →
    commandWith p .frameDec { s with mem := { s.mem with fram := s.mem.fram ++ post } } =
      { commandWith p .frameDec s with
        mem := { (commandWith p .frameDec s).mem with fram := s.mem.fram ++ post } }

/-- R158: the round trip, for every hash, at any parameters with the policy `ceil`. When `FRAME_ENC` succeeds and the
codec is compatible on this content (the frame is stored, or the candidate is not empty and decompresses to the content, or
both are empty), `FRAME_DEC` of the container, with anything after it and anything in the other registers and buffers,
succeeds and recovers the content, its length and the end of the container. -/
def Obligations.FrameRoundTrip : Prop :=
  ∀ (p : Params) (s u : State) (c post : ByteSeq), p.wf = true → p.splitPolicy = .ceil → s.mem.wf p = true →
    p.compress s.mem.cont = some c →
    (s.mem.cont.length < c.length ∨ (c ≠ [] ∧ p.decompress c c.length s.mem.cont.length = some s.mem.cont) ∨
      (c = [] ∧ s.mem.cont = [])) →
    (commandWith p .frameEnc s).errFlag = false →
    u.mem.fram = (commandWith p .frameEnc s).mem.fram ++ post →
    let v := commandWith p .frameDec u
    v.errFlag = false ∧ v.mem.cont = s.mem.cont ∧ v.mem.payl = (commandWith p .frameEnc s).mem.payl ∧
    v.hdrCsize.toNat = s.mem.cont.length ∧
    v.off = BitVec.ofNat 64 (commandWith p .frameEnc s).mem.fram.length

/-- R159 with R152: when the candidate is strictly longer than the content, `FRAME_ENC` marks the frame stored, the payload
is the content, every record carries the uncompressed flag, and any decompressor at all gives the content back. -/
def Obligations.FallbackStoresTheContent : Prop :=
  ∀ (p : Params) (s : State) (c : ByteSeq), p.wf = true → p.splitPolicy = .ceil → s.mem.wf p = true →
    p.compress s.mem.cont = some c → s.mem.cont.length < c.length →
    (commandWith p .frameEnc s).errFlag = false →
    let t := commandWith p .frameEnc s
    t.res1 = 1 ∧ t.mem.payl = s.mem.cont ∧
    (∃ recs, RecordsLegal recs ∧ (∀ r ∈ recs, r.2 = true) ∧ payloadOf recs = s.mem.cont ∧
      t.mem.fram = t.mem.fram.take 15 ++ records recs ++ sentinel false ++ le32 (p.hash32 s.mem.cont)) ∧
    ∀ d : ByteSeq → Nat → Nat → Option ByteSeq,
      (commandWith { p with decompress := d } .frameDec t).errFlag = false ∧
      (commandWith { p with decompress := d } .frameDec t).mem.cont = s.mem.cont

/-- R160: after a successful `FRAME_DEC`, a change of any one of the four checksum bytes of its container gives
`ContentChecksumMismatch`, for every hash and codec. -/
def Obligations.TrailerTamperIsDetected : Prop :=
  ∀ (p : Params) (s : State) (i : Nat) (b : Byte), p.wf = true → s.mem.wf p = true →
    (commandWith p .frameDec s).errFlag = false →
    (commandWith p .frameDec s).off.toNat ≤ i + 4 → i < (commandWith p .frameDec s).off.toNat →
    s.mem.byte .fram i ≠ some b →
    (commandWith p .frameDec { s with mem := { s.mem with fram := s.mem.fram.set i b } }).err = 0x03

/-- R193, decode by hand: `HDR_DEC`, `BLK_READ`, a load of `CONT` with the payload (when all blocks were uncompressed) or
with the host's own decompression to `HDR_CSIZE` bytes, `CSUM_CHK`. When the first two succeed and the load fits,
`FRAME_DEC` on the same `FRAM` ends as `CSUM_CHK` does, and on success with the same content, payload and header. -/
def Obligations.LeafCommandsComposeToFrameDec : Prop :=
  ∀ (p : Params) (s : State) (y : ByteSeq), p.wf = true → s.mem.wf p = true →
    let a := commandWith p .hdrDec s
    let b := commandWith p .blkRead a
    a.errFlag = false → b.errFlag = false →
    (b.res1 = 1 ∧ y = b.mem.payl ∨
      b.res1 = 0 ∧ p.decompress b.mem.payl b.mem.payl.length b.hdrCsize.toNat = some y ∧
        y.length = b.hdrCsize.toNat) →
    y.length ≤ p.capCont →
    let d := commandWith p .csumChk { b with mem := { b.mem with cont := y } }
    let f := commandWith p .frameDec s
    f.status = d.status ∧ f.err = d.err ∧
    (f.errFlag = false → f.mem = d.mem ∧ f.hdrFlg = d.hdrFlg ∧ f.hdrBd = d.hdrBd ∧ f.hdrCsize = d.hdrCsize ∧
      f.hdrHc = d.hdrHc ∧ f.res1 = d.res1 ∧ f.off = d.off + 4)

/-- R193, encode by hand: the pieces that `HDR_ENC` (content and payload lengths), `BLK_WRITE` (with the maximum that
`HDR_ENC` returned and the stored flag) and `CSUM_GEN` leave in `FRAM` are, in that order, the container of `FRAME_ENC`. -/
def Obligations.LeafCommandsComposeToFrameEnc : Prop :=
  ∀ (p : Params) (s : State), p.wf = true → s.mem.wf p = true → (commandWith p .frameEnc s).errFlag = false →
    let t := commandWith p .frameEnc s
    let a := commandWith p .hdrEnc { s with arg0 := s.clen, arg1 := t.plen }
    let b := commandWith p .blkWrite { s with mem := { s.mem with payl := t.mem.payl }, arg0 := a.res1, arg1 := t.res1 }
    let d := commandWith p .csumGen s
    t.mem.fram = a.mem.fram ++ b.mem.fram ++ d.mem.fram ∧
    a.errFlag = false ∧ b.errFlag = false ∧ d.errFlag = false ∧ b.res0 = t.res0

/-- R194 with R133: under `SPLIT_POLICY = reference`, a stored frame whose payload is a nonzero multiple of 4000000 bytes
does not decode unless the hash of the content is 0: the EndMark is read as the checksum. -/
def Obligations.ReferenceSplitBreaksTheRoundTrip : Prop :=
  ∀ (p : Params) (s : State) (c : ByteSeq), p.wf = true → p.splitPolicy = .reference → s.mem.wf p = true →
    p.compress s.mem.cont = some c → s.mem.cont.length < c.length →
    s.mem.cont ≠ [] → s.mem.cont.length % 4000000 = 0 → p.hash32 s.mem.cont ≠ 0 →
    (commandWith p .frameEnc s).errFlag = false →
    (commandWith p .frameDec (commandWith p .frameEnc s)).err = 0x03
end

