-- ==== Sys2Proof/Laws/Bytes.lean ====
section
/-! SUPPORT. Little-endian fields and slices of byte sequences (spec/00_scope.md R15, R16). -/

namespace Sys2Proof.Machine

@[simp] theorem le32_length (w : Word32) : (le32 w).length = 4 := rfl

@[simp] theorem le64_length (w : Word64) : (le64 w).length = 8 := rfl

theorem unle_le32 (w : Word32) : unle (le32 w) = w.toNat := by
  have h : w.toNat < 2 ^ 32 := w.isLt
  simp only [le32, unle, BitVec.extractLsb'_toNat, Nat.shiftRight_eq_div_pow]
  omega

theorem unle_le64 (w : Word64) : unle (le64 w) = w.toNat := by
  have h : w.toNat < 2 ^ 64 := w.isLt
  simp only [le64, unle, BitVec.extractLsb'_toNat, Nat.shiftRight_eq_div_pow]
  omega

/-- Assembling what `LE32` wrote gives the word back. -/
@[simp] theorem unle32_le32 (w : Word32) : unle32 (le32 w) = w := by
  rw [unle32, unle_le32, BitVec.ofNat_toNat, BitVec.setWidth_eq]

/-- Assembling what `LE64` wrote gives the word back. -/
@[simp] theorem unle64_le64 (w : Word64) : unle64 (le64 w) = w := by
  rw [unle64, unle_le64, BitVec.ofNat_toNat, BitVec.setWidth_eq]

/-- Four bytes assembled are their concatenation, last byte on top. -/
theorem unle32_four (b0 b1 b2 b3 : Byte) : unle32 [b0, b1, b2, b3] = b3 ++ b2 ++ b1 ++ b0 := by
  apply BitVec.eq_of_toNat_eq
  have h0 := b0.isLt; have h1 := b1.isLt; have h2 := b2.isLt; have h3 := b3.isLt
  simp only [unle32, unle, BitVec.toNat_ofNat, BitVec.toNat_append, Nat.shiftLeft_eq]
  rw [Nat.mod_eq_of_lt (by omega)]
  rw [← Nat.shiftLeft_eq, ← Nat.shiftLeft_eq, ← Nat.shiftLeft_eq]
  rw [← Nat.shiftLeft_add_eq_or_of_lt h2, ← Nat.shiftLeft_add_eq_or_of_lt h1,
    ← Nat.shiftLeft_add_eq_or_of_lt h0]
  simp only [Nat.shiftLeft_eq]
  omega

/-- A byte sequence of length 4 is its four bytes. -/
theorem exists_four {s : ByteSeq} (h : s.length = 4) : ∃ b0 b1 b2 b3, s = [b0, b1, b2, b3] := by
  match s, h with
  | [b0, b1, b2, b3], _ => exact ⟨b0, b1, b2, b3, rfl⟩

/-- `LE32` of what four bytes assemble to is the four bytes. -/
theorem le32_unle32 {s : ByteSeq} (h : s.length = 4) : le32 (unle32 s) = s := by
  obtain ⟨b0, b1, b2, b3, rfl⟩ := exists_four h
  rw [unle32_four]
  have h0 := b0.isLt; have h1 := b1.isLt; have h2 := b2.isLt; have h3 := b3.isLt
  simp only [le32, List.cons.injEq, and_true]
  refine ⟨?_, ?_, ?_, ?_⟩ <;> apply BitVec.eq_of_toNat_eq <;>
    simp only [BitVec.extractLsb'_toNat, ← unle32_four, unle32, unle, BitVec.toNat_ofNat,
      Nat.shiftRight_eq_div_pow] <;> omega

/-- A sequence of length 8 is its eight bytes. -/
theorem exists_eight {s : ByteSeq} (h : s.length = 8) :
    ∃ b0 b1 b2 b3 b4 b5 b6 b7, s = [b0, b1, b2, b3, b4, b5, b6, b7] := by
  match s, h with
  | [b0, b1, b2, b3, b4, b5, b6, b7], _ => exact ⟨b0, b1, b2, b3, b4, b5, b6, b7, rfl⟩

/-- `LE64` of what eight bytes assemble to is the eight bytes. -/
theorem le64_unle64 {s : ByteSeq} (h : s.length = 8) : le64 (unle64 s) = s := by
  obtain ⟨b0, b1, b2, b3, b4, b5, b6, b7, rfl⟩ := exists_eight h
  have h0 := b0.isLt; have h1 := b1.isLt; have h2 := b2.isLt; have h3 := b3.isLt
  have h4 := b4.isLt; have h5 := b5.isLt; have h6 := b6.isLt; have h7 := b7.isLt
  simp only [le64, List.cons.injEq, and_true]
  refine ⟨?_, ?_, ?_, ?_, ?_, ?_, ?_, ?_⟩ <;> apply BitVec.eq_of_toNat_eq <;>
    simp only [BitVec.extractLsb'_toNat, unle64, unle, BitVec.toNat_ofNat,
      Nat.shiftRight_eq_div_pow] <;> omega

/-- Different 4-byte fields assemble to different words. -/
theorem unle32_injective {s t : ByteSeq} (hs : s.length = 4) (ht : t.length = 4)
    (h : unle32 s = unle32 t) : s = t := by
  rw [← le32_unle32 hs, ← le32_unle32 ht, h]

theorem slice_length {s : ByteSeq} {a n : Nat} (h : a + n ≤ s.length) : (slice s a n).length = n := by
  simp only [slice, List.length_take, List.length_drop]; omega

theorem slice_length_le (s : ByteSeq) (a n : Nat) : (slice s a n).length ≤ s.length := by
  simp only [slice, List.length_take, List.length_drop]; omega

/-- The slice just after a prefix. -/
theorem slice_append {pre f t : ByteSeq} {a n : Nat} (ha : pre.length = a) (hn : f.length = n) :
    slice (pre ++ (f ++ t)) a n = f := by
  subst ha hn; simp [slice]

/-- A slice that lies in the first part does not see what is appended. -/
theorem slice_append_left {s t : ByteSeq} {a n : Nat} (h : a + n ≤ s.length) :
    slice (s ++ t) a n = slice s a n := by
  have h' : n ≤ (s.drop a).length := by rw [List.length_drop]; omega
  rw [slice, slice, List.drop_append_of_le_length (by omega), List.take_append_of_le_length h']

theorem byteAt_append_left {s t : ByteSeq} {i : Nat} (h : i < s.length) : byteAt (s ++ t) i = byteAt s i := by
  simp [byteAt, List.getElem?_append_left h]

/-- A sequence split at a slice. -/
theorem split_at_slice (s : ByteSeq) (a n : Nat) :
    s = s.take a ++ (slice s a n ++ s.drop (a + n)) := by
  simp only [slice]
  rw [← List.drop_drop, List.take_append_drop, List.take_append_drop]

end Sys2Proof.Machine
end

