-- ==== Sys2Proof/Laws/BlockCodec.lean ====
section
/-! SUPPORT. The block-record codec (spec/41_block_codec.md): the size field is read as it is written, the split is a
chunking of the payload, the reader reads exactly runs of records. -/

namespace Sys2Proof.Machine

@[simp] theorem encodeBsf_length (n : Nat) (u : Bool) : (encodeBsf n u).length = 4 := rfl

theorem bsfWord_toNat {n : Nat} (h : n < 2 ^ 31) (u : Bool) :
    (bsfWord n u).toNat = n + 2 ^ 31 * u.toNat := by
  have hu : (BitVec.ofBool u).toNat = u.toNat := by cases u <;> rfl
  have hb : u.toNat ≤ 1 := by cases u <;> decide
  simp only [bsfWord, BitVec.toNat_or, BitVec.toNat_ofNat, BitVec.toNat_shiftLeft,
    BitVec.toNat_setWidth, hu]
  have h1 : n % 2 ^ 32 = n := Nat.mod_eq_of_lt (by omega)
  have h2 : u.toNat % 2 ^ 32 = u.toNat := Nat.mod_eq_of_lt (by omega)
  have h3 : u.toNat <<< 31 % 2 ^ 32 = u.toNat <<< 31 := by
    rw [Nat.shiftLeft_eq]; exact Nat.mod_eq_of_lt (by omega)
  rw [h1, h2, h3, Nat.or_comm, ← Nat.shiftLeft_add_eq_or_of_lt h, Nat.shiftLeft_eq]
  omega

theorem decodeBsf_fst (f : ByteSeq) : (decodeBsf f).1 = (unle32 f).toNat % 2 ^ 31 := by
  simp [decodeBsf, BitVec.extractLsb'_toNat]

theorem decodeBsf_snd (f : ByteSeq) : (decodeBsf f).2 = decide (2 ^ 31 ≤ (unle32 f).toNat) := by
  have h := (unle32 f).isLt
  rw [Bool.eq_iff_iff, decide_eq_true_iff]
  simp only [decodeBsf, BitVec.getLsbD, Nat.testBit_eq_decide_div_mod_eq, decide_eq_true_iff]
  omega

theorem decodeBsf_lt (f : ByteSeq) : (decodeBsf f).1 < 2 ^ 31 := by
  rw [decodeBsf_fst]; omega

/-- Decoding an encoded size field (R122). -/
theorem decodeBsf_encodeBsf {n : Nat} (h : n < 2 ^ 31) (u : Bool) : decodeBsf (encodeBsf n u) = (n, u) := by
  have hw : unle32 (encodeBsf n u) = bsfWord n u := unle32_le32 _
  refine Prod.ext ?_ ?_
  · rw [decodeBsf_fst, hw, bsfWord_toNat h]; cases u
    · rw [Bool.toNat_false]; omega
    · rw [Bool.toNat_true]; omega
  · rw [decodeBsf_snd, hw, bsfWord_toNat h]; cases u <;> simp; omega

/-- Encoding a decoded size field (R122). -/
theorem encodeBsf_decodeBsf {f : ByteSeq} (h : f.length = 4) :
    encodeBsf (decodeBsf f).1 (decodeBsf f).2 = f := by
  have hw : bsfWord (decodeBsf f).1 (decodeBsf f).2 = unle32 f := by
    apply BitVec.eq_of_toNat_eq
    rw [bsfWord_toNat (decodeBsf_lt f), decodeBsf_fst, decodeBsf_snd]
    have := (unle32 f).isLt
    by_cases hc : 2 ^ 31 ≤ (unle32 f).toNat
    · rw [decide_eq_true hc, Bool.toNat_true]; omega
    · rw [decide_eq_false hc, Bool.toNat_false]; omega
  rw [encodeBsf, hw, le32_unle32 h]

/-! ### The split (R124) -/

theorem split_length (pol : SplitPolicy) (n m : Nat) :
    (split pol n m).length = n / m + (hasRemainderRange pol n m).toNat := by
  cases h : hasRemainderRange pol n m <;> simp [split, h]

theorem ceil_div {n m : Nat} (hm : 1 ≤ m) : (n + m - 1) / m = n / m + (if n % m > 0 then 1 else 0) := by
  have hd := Nat.div_add_mod n m
  have hlt := Nat.mod_lt n hm
  split_ifs with h
  · rw [Nat.div_eq_iff (by omega), Nat.add_mul, Nat.mul_comm (n / m) m]; omega
  · rw [Nat.div_eq_iff (by omega), Nat.add_zero, Nat.mul_comm (n / m) m]; omega

theorem split_ceil_length {n m : Nat} (hm : 1 ≤ m) : (split .ceil n m).length = (n + m - 1) / m := by
  rw [split_length, ceil_div hm]
  by_cases h : n % m > 0 <;> simp [hasRemainderRange, h]

theorem split_reference_length (n m : Nat) :
    (split .reference n m).length = n / m + (if 0 < n then 1 else 0) := by
  rw [split_length]
  by_cases h : 0 < n <;> simp [hasRemainderRange, h]

/-- Every range of a split, by its index (R124). -/
theorem split_getElem (pol : SplitPolicy) {n m : Nat} (hm : 1 ≤ m) {i : Nat} (h : i < (split pol n m).length) :
    (split pol n m)[i] = (i * m, min m (n - i * m)) := by
  have hd := Nat.div_add_mod n m
  have hlt := Nat.mod_lt n hm
  have hlen := split_length pol n m
  simp only [split]
  by_cases hi : i < n / m
  · rw [List.getElem_append_left (by simpa using hi)]
    have h1 : m * (i + 1) ≤ m * (n / m) := Nat.mul_le_mul_left m hi
    rw [Nat.mul_add, Nat.mul_comm m i] at h1
    have : min m (n - i * m) = m := by omega
    simp [this]
  · rw [List.getElem_append_right (by simpa using hi)]
    by_cases ht : hasRemainderRange pol n m = true
    · rw [ht, Bool.toNat_true] at hlen
      have hq : i = n / m := by omega
      subst hq
      have : min m (n - n / m * m) = n % m := by rw [Nat.mul_comm]; omega
      simp [ht, this]
    · rw [Bool.not_eq_true] at ht
      rw [ht, Bool.toNat_false] at hlen; omega

theorem split_zero (pol : SplitPolicy) (m : Nat) : split pol 0 m = [] := by
  cases pol <;> simp [split, hasRemainderRange]

/-- A payload longer than the maximum starts with a full range; the rest is the split of the rest, moved on. -/
theorem split_gt (pol : SplitPolicy) {n m : Nat} (hm : 1 ≤ m) (h : m < n) :
    split pol n m = (0, m) :: (split pol (n - m) m).map (fun r => (r.1 + m, r.2)) := by
  have hq : n / m = (n - m) / m + 1 := by
    rw [Nat.div_eq n m, if_pos ⟨by omega, by omega⟩]
  have hr : n % m = (n - m) % m := Nat.mod_eq_sub_mod (by omega)
  have ht : hasRemainderRange pol n m = hasRemainderRange pol (n - m) m := by
    cases pol
    · simp [hasRemainderRange, hr]
    · simp [hasRemainderRange, (by omega : 0 < n), h]
  simp only [split, ht, hr, hq, List.range_succ_eq_map, List.map_cons, List.map_map, Nat.zero_mul,
    List.cons_append, List.map_append]
  congr 2
  · apply List.map_congr_left
    intro i _
    simp [Nat.succ_mul]
  · cases hasRemainderRange pol (n - m) m <;> simp [Nat.succ_mul]

/-- A payload no longer than the maximum is one range, and under `reference` a full one is followed by an empty one. -/
theorem split_le (pol : SplitPolicy) {n m : Nat} (hn : 0 < n) (h : n ≤ m) :
    split pol n m = if n = m ∧ pol = .reference then [(0, n), (n, 0)] else [(0, n)] := by
  have hm : 0 < m := by omega
  by_cases he : n = m
  · subst he
    cases pol <;> simp [split, hasRemainderRange, Nat.div_self hm, hm]
  · have hlt : n < m := by omega
    cases pol <;>
      simp [split, hasRemainderRange, Nat.div_eq_of_lt hlt, Nat.mod_eq_of_lt hlt, hn, he]

end Sys2Proof.Machine
end

