-- ==== Sys2Proof/Laws/BlockReader.lean ====
section
/-! SUPPORT. What the reader of block records does (spec/41_block_codec.md R128 to R132): it answers exactly on runs of
records that a sentinel ends, and its turns are enough. -/

namespace Sys2Proof.Machine

theorem encodeBsf_zero (u : Bool) : encodeBsf 0 u = sentinel u := by cases u <;> decide

@[simp] theorem sentinel_length (u : Bool) : (sentinel u).length = 4 := rfl

@[simp] theorem records_nil : records [] = [] := rfl

@[simp] theorem records_cons (r : ByteSeq × Bool) (recs : List (ByteSeq × Bool)) :
    records (r :: recs) = encodeBsf r.1.length r.2 ++ (r.1 ++ records recs) := by
  simp [records]

@[simp] theorem payloadOf_nil : payloadOf [] = [] := rfl

@[simp] theorem payloadOf_cons (r : ByteSeq × Bool) (recs : List (ByteSeq × Bool)) :
    payloadOf (r :: recs) = r.1 ++ payloadOf recs := rfl

@[simp] theorem allUncompressed_nil : allUncompressed [] = true := rfl

@[simp] theorem allUncompressed_cons (r : ByteSeq × Bool) (recs : List (ByteSeq × Bool)) :
    allUncompressed (r :: recs) = (r.2 && allUncompressed recs) := rfl

theorem RecordsLegal.tail {r : ByteSeq × Bool} {recs : List (ByteSeq × Bool)} (h : RecordsLegal (r :: recs)) :
    RecordsLegal recs := fun x hx => h x (List.mem_cons_of_mem _ hx)

/-- A record takes at least five bytes (R132). -/
theorem five_mul_le_records {recs : List (ByteSeq × Bool)} (h : RecordsLegal recs) :
    5 * recs.length ≤ (records recs).length := by
  induction recs with
  | nil => simp
  | cons r recs ih =>
    have hr := (h r List.mem_cons_self).1
    have := ih h.tail
    simp only [List.length_cons, records_cons, List.length_append, encodeBsf_length]
    omega

/-- One turn of the reader's loop (R128). -/
theorem readBlocksLoop_succ (c : ByteSeq) (turns o : Nat) (acc : ByteSeq) (all : Bool) (cnt : Nat) :
    readBlocksLoop c (turns + 1) o acc all cnt =
      if o + 4 > c.length then .error .truncatedInput
      else if (decodeBsf (slice c o 4)).1 = 0 then
        .ok { payload := acc, allUnc := all, newOffset := o + 4, count := cnt }
      else if o + 4 + (decodeBsf (slice c o 4)).1 > c.length then .error .truncatedInput
      else readBlocksLoop c turns (o + 4 + (decodeBsf (slice c o 4)).1)
        (acc ++ slice c (o + 4) (decodeBsf (slice c o 4)).1) (all && (decodeBsf (slice c o 4)).2) (cnt + 1) := rfl

/-- A run of records with its sentinel, found anywhere in a container, is what the reader's loop returns. -/
theorem readBlocksLoop_records {recs : List (ByteSeq × Bool)} (hl : RecordsLegal recs) (u : Bool) (post : ByteSeq) :
    ∀ (pre acc : ByteSeq) (all : Bool) (cnt turns : Nat), recs.length < turns →
      readBlocksLoop (pre ++ (records recs ++ (sentinel u ++ post))) turns pre.length acc all cnt =
        .ok { payload := acc ++ payloadOf recs, allUnc := all && allUncompressed recs,
              newOffset := pre.length + (records recs).length + 4, count := cnt + recs.length } := by
  induction recs with
  | nil =>
    intro pre acc all cnt turns ht
    obtain ⟨turns, rfl⟩ := Nat.exists_eq_add_one_of_ne_zero (by omega : turns ≠ 0)
    have hs : slice (pre ++ (sentinel u ++ post)) pre.length 4 = encodeBsf 0 u := by
      rw [encodeBsf_zero]; exact slice_append rfl rfl
    simp only [readBlocksLoop, records_nil, List.nil_append, hs, decodeBsf_encodeBsf (by omega : 0 < 2 ^ 31)]
    simp
  | cons r recs ih =>
    intro pre acc all cnt turns ht
    obtain ⟨turns, rfl⟩ := Nat.exists_eq_add_one_of_ne_zero (by omega : turns ≠ 0)
    have hr := hl r List.mem_cons_self
    have hshape : pre ++ (records (r :: recs) ++ (sentinel u ++ post))
        = pre ++ (encodeBsf r.1.length r.2 ++ (r.1 ++ (records recs ++ (sentinel u ++ post)))) := by simp
    have hs : slice (pre ++ (records (r :: recs) ++ (sentinel u ++ post))) pre.length 4 = encodeBsf r.1.length r.2 := by
      rw [hshape]; exact slice_append rfl rfl
    have hp : slice (pre ++ (records (r :: recs) ++ (sentinel u ++ post))) (pre.length + 4) r.1.length = r.1 := by
      rw [hshape, ← List.append_assoc]; exact slice_append (by simp) rfl
    have hlen : (pre ++ (records (r :: recs) ++ (sentinel u ++ post))).length
        = pre.length + 4 + r.1.length + (records recs).length + 4 + post.length := by
      rw [hshape]; simp; omega
    have hnext := ih hl.tail (pre ++ (encodeBsf r.1.length r.2 ++ r.1)) (acc ++ r.1) (all && r.2) (cnt + 1) turns
      (by simpa using ht)
    rw [readBlocksLoop_succ, if_neg (by omega)]
    simp only [hs, decodeBsf_encodeBsf hr.2, hp]
    rw [if_neg (by omega), if_neg (by omega)]
    have hshape' : pre ++ (records (r :: recs) ++ (sentinel u ++ post))
        = pre ++ (encodeBsf r.1.length r.2 ++ r.1) ++ (records recs ++ (sentinel u ++ post)) := by simp
    have hoff : pre.length + 4 + r.1.length = (pre ++ (encodeBsf r.1.length r.2 ++ r.1)).length := by simp; omega
    rw [hshape', hoff, hnext]
    simp [Bool.and_assoc]; omega

/-- The reader's loop answers only on a run of records that a sentinel ends, and what it answers is that run's. -/
theorem readBlocksLoop_ok {c : ByteSeq} {turns : Nat} :
    ∀ {o : Nat} {acc : ByteSeq} {all : Bool} {cnt : Nat} {r : BlockRun},
      readBlocksLoop c turns o acc all cnt = .ok r →
      ∃ recs u pre post, RecordsLegal recs ∧ pre.length = o ∧
        c = pre ++ (records recs ++ (sentinel u ++ post)) ∧
        r = { payload := acc ++ payloadOf recs, allUnc := all && allUncompressed recs,
              newOffset := o + (records recs).length + 4, count := cnt + recs.length } := by
  induction turns with
  | zero => intro o acc all cnt r h; simp [readBlocksLoop] at h
  | succ turns ih =>
    intro o acc all cnt r h
    rw [readBlocksLoop_succ] at h
    split_ifs at h with h4 h0 hn
    · cases h
      have hf : (slice c o 4).length = 4 := slice_length (by omega)
      have hf0 := encodeBsf_decodeBsf hf
      rw [h0, encodeBsf_zero] at hf0
      refine ⟨[], (decodeBsf (slice c o 4)).2, c.take o, c.drop (o + 4), ?_, ?_, ?_, ?_⟩
      · simp [RecordsLegal]
      · simp; omega
      · simp only [records_nil, List.nil_append, hf0]; exact split_at_slice c o 4
      · simp
    · obtain ⟨recs, u, pre, post, hl, hpre, hc, hr⟩ := ih h
      have hf : (slice c o 4).length = 4 := slice_length (by omega)
      have hp : (slice c (o + 4) (decodeBsf (slice c o 4)).1).length = (decodeBsf (slice c o 4)).1 :=
        slice_length (by omega)
      refine ⟨(slice c (o + 4) (decodeBsf (slice c o 4)).1, (decodeBsf (slice c o 4)).2) :: recs, u, c.take o, post,
        ?_, ?_, ?_, ?_⟩
      · intro x hx
        rcases List.mem_cons.1 hx with rfl | hx
        · have := decodeBsf_lt (slice c o 4)
          simp only [hp]; omega
        · exact hl x hx
      · simp; omega
      · have h1 := split_at_slice c o 4
        have h2 : c.drop (o + 4) = slice c (o + 4) (decodeBsf (slice c o 4)).1
            ++ c.drop (o + 4 + (decodeBsf (slice c o 4)).1) := by
          rw [slice, ← List.drop_drop (i := (decodeBsf (slice c o 4)).1), List.take_append_drop]
        have h3 : c.drop (o + 4 + (decodeBsf (slice c o 4)).1) = records recs ++ (sentinel u ++ post) := by
          rw [← hpre]
          conv_lhs => rw [hc]
          simp
        rw [h2, h3] at h1
        simp only [records_cons, hp, encodeBsf_decodeBsf hf, List.append_assoc] at h1 ⊢
        exact h1
      · rw [hr]; simp [hp, Bool.and_assoc]; omega

/-- The reader's loop fails with `TruncatedInput` only (R131). -/
theorem readBlocksLoop_error {c : ByteSeq} {turns : Nat} :
    ∀ {o : Nat} {acc : ByteSeq} {all : Bool} {cnt : Nat} {k : ErrKind},
      readBlocksLoop c turns o acc all cnt = .error k → k = .truncatedInput := by
  induction turns with
  | zero => intro o acc all cnt k h; simpa [readBlocksLoop] using h.symm
  | succ turns ih =>
    intro o acc all cnt k h
    rw [readBlocksLoop_succ] at h
    split_ifs at h
    · cases h; rfl
    · cases h; rfl
    · exact ih h

/-- More turns than a run can have records change nothing (R132). -/
theorem readBlocksLoop_turns {c : ByteSeq} {t t' : Nat} (ht : c.length / 5 < t) (ht' : c.length / 5 < t')
    (o : Nat) (acc : ByteSeq) (all : Bool) (cnt : Nat) :
    readBlocksLoop c t o acc all cnt = readBlocksLoop c t' o acc all cnt := by
  have key : ∀ {a b : Nat} {r : BlockRun}, c.length / 5 < b → readBlocksLoop c a o acc all cnt = .ok r →
      readBlocksLoop c b o acc all cnt = .ok r := by
    intro a b r hb h
    obtain ⟨recs, u, pre, post, hl, hpre, hc, rfl⟩ := readBlocksLoop_ok h
    have h5 := five_mul_le_records hl
    have hlen : c.length = pre.length + (records recs).length + 4 + post.length := by rw [hc]; simp; omega
    subst hpre
    conv_lhs => rw [hc]
    exact readBlocksLoop_records hl u post pre acc all cnt b (by omega)
  cases h : readBlocksLoop c t o acc all cnt with
  | ok r => exact (key ht' h).symm
  | error k =>
    cases h' : readBlocksLoop c t' o acc all cnt with
    | ok r => rw [key ht h'] at h; cases h
    | error k' => rw [readBlocksLoop_error h, readBlocksLoop_error h']

/-- Reading a run of records (R128 to R131). -/
theorem readBlocks_records {recs : List (ByteSeq × Bool)} (hl : RecordsLegal recs) (u : Bool) (pre post : ByteSeq)
    {o : Nat} (ho : pre.length = o) :
    readBlocks (pre ++ (records recs ++ (sentinel u ++ post))) o =
      .ok { payload := payloadOf recs, allUnc := allUncompressed recs,
            newOffset := o + (records recs).length + 4, count := recs.length } := by
  subst ho
  have h5 := five_mul_le_records hl
  rw [readBlocks, readBlocksLoop_records hl u post pre [] true 0 _ (by simp; omega)]
  simp

/-- The reader answers only on a run of records (R128 to R131). -/
theorem readBlocks_ok {c : ByteSeq} {o : Nat} {r : BlockRun} (h : readBlocks c o = .ok r) :
    ∃ recs u pre post, RecordsLegal recs ∧ pre.length = o ∧
      c = pre ++ (records recs ++ (sentinel u ++ post)) ∧
      r = { payload := payloadOf recs, allUnc := allUncompressed recs,
            newOffset := o + (records recs).length + 4, count := recs.length } := by
  obtain ⟨recs, u, pre, post, hl, hpre, hc, hr⟩ := readBlocksLoop_ok h
  exact ⟨recs, u, pre, post, hl, hpre, hc, by simpa using hr⟩

/-- The reader fails with `TruncatedInput` only. -/
theorem readBlocks_error {c : ByteSeq} {o : Nat} {k : ErrKind} (h : readBlocks c o = .error k) :
    k = .truncatedInput := readBlocksLoop_error h

/-- What a run returns stays within the container. -/
theorem readBlocks_bounds {c : ByteSeq} {o : Nat} {r : BlockRun} (h : readBlocks c o = .ok r) :
    r.newOffset ≤ c.length ∧ r.payload.length ≤ c.length ∧ r.count ≤ c.length := by
  obtain ⟨recs, u, pre, post, hl, hpre, hc, rfl⟩ := readBlocks_ok h
  have h5 := five_mul_le_records hl
  have hp : ∀ l : List (ByteSeq × Bool), (payloadOf l).length ≤ (records l).length := by
    intro l
    induction l with
    | nil => simp
    | cons x l ih => simp only [payloadOf_cons, records_cons, List.length_append]; omega
  have := hp recs
  have hlen : c.length = pre.length + (records recs).length + 4 + post.length := by rw [hc]; simp; omega
  simp only
  omega

/-- Bytes after the sentinel are not read (R157). -/
theorem readBlocks_append {c : ByteSeq} {o : Nat} {r : BlockRun} (h : readBlocks c o = .ok r) (t : ByteSeq) :
    readBlocks (c ++ t) o = .ok r := by
  obtain ⟨recs, u, pre, post, hl, hpre, hc, rfl⟩ := readBlocks_ok h
  have : c ++ t = pre ++ (records recs ++ (sentinel u ++ (post ++ t))) := by rw [hc]; simp
  rw [this]; exact readBlocks_records hl u pre (post ++ t) hpre

end Sys2Proof.Machine
end

