-- ==== Sys2Proof/Laws/BlockWriter.lean ====
section
/-! SUPPORT. What the writer of block records lays out (spec/41_block_codec.md R124 to R127, R133): a run of records over the
payload, so that the reader gives the payload back. -/

namespace Sys2Proof.Machine

/-- The blocks of a payload, each with the frame's one flag (R126). -/
def blocksOf (pol : SplitPolicy) (payload : ByteSeq) (m : Nat) (u : Bool) : List (ByteSeq × Bool) :=
  (split pol payload.length m).map (fun r => (slice payload r.1 r.2, u))

@[simp] theorem blocksOf_length (pol : SplitPolicy) (payload : ByteSeq) (m : Nat) (u : Bool) :
    (blocksOf pol payload m u).length = (split pol payload.length m).length := by simp [blocksOf]

theorem records_append (a b : List (ByteSeq × Bool)) : records (a ++ b) = records a ++ records b := by
  simp [records]

theorem payloadOf_append (a b : List (ByteSeq × Bool)) : payloadOf (a ++ b) = payloadOf a ++ payloadOf b := by
  simp [payloadOf]

theorem length_records (l : List (ByteSeq × Bool)) : (records l).length = (payloadOf l).length + 4 * l.length := by
  induction l with
  | nil => rfl
  | cons r l ih =>
    simp only [records_cons, payloadOf_cons, List.length_append, List.length_cons, encodeBsf_length]; omega

theorem endMark_eq_sentinel : endMark = sentinel false := rfl

/-- Every range of a split lies in the payload. -/
theorem split_mem_bound {pol : SplitPolicy} {n m : Nat} (hm : 1 ≤ m) {r : Nat × Nat} (h : r ∈ split pol n m) :
    r.1 + r.2 ≤ n ∧ r.2 ≤ m ∧ (pol = .ceil → 1 ≤ r.2) := by
  obtain ⟨i, hi, rfl⟩ := List.getElem_of_mem h
  rw [split_getElem pol hm hi]
  have hd := Nat.div_add_mod n m
  have hlt := Nat.mod_lt n hm
  have hlen := split_length pol n m
  have hle : i ≤ n / m := by
    have := Bool.toNat_le (hasRemainderRange pol n m); omega
  have hmul : i * m ≤ n / m * m := Nat.mul_le_mul_right m hle
  rw [Nat.mul_comm (n / m) m] at hmul
  refine ⟨by simp only; omega, by simp only; omega, ?_⟩
  rintro rfl
  by_cases hlast : i < n / m
  · have h1 : (i + 1) * m ≤ n / m * m := Nat.mul_le_mul_right m hlast
    rw [Nat.add_mul, Nat.mul_comm (n / m) m] at h1
    simp only; omega
  · have hi' : i = n / m := by omega
    have ht : hasRemainderRange .ceil n m = true := by
      cases h : hasRemainderRange .ceil n m
      · rw [h, Bool.toNat_false] at hlen; omega
      · rfl
    simp only [hasRemainderRange, decide_eq_true_iff] at ht
    subst hi'
    rw [Nat.mul_comm]; simp only; omega

/-- The writer lays out the records of the payload's blocks, then the EndMark (R126). -/
theorem writeBlocks_eq (pol : SplitPolicy) (payload : ByteSeq) {m : Nat} (hm : 1 ≤ m) (u : Bool) :
    writeBlocks pol payload m u = records (blocksOf pol payload m u) ++ sentinel false := by
  rw [writeBlocks, endMark_eq_sentinel, blocksOf, records, List.flatMap_map]
  congr 1
  apply List.flatMap_congr
  intro r hr
  have hb := split_mem_bound hm hr
  simp only [blockRecord]
  rw [slice_length (by omega)]

theorem blocksOf_nil (pol : SplitPolicy) (m : Nat) (u : Bool) : blocksOf pol [] m u = [] := by
  simp [blocksOf, split_zero]

/-- A payload longer than the maximum: one full block, then the blocks of the rest. -/
theorem blocksOf_gt (pol : SplitPolicy) {payload : ByteSeq} {m : Nat} (hm : 1 ≤ m) (h : m < payload.length)
    (u : Bool) :
    blocksOf pol payload m u = (payload.take m, u) :: blocksOf pol (payload.drop m) m u := by
  rw [blocksOf, split_gt pol hm h, blocksOf, List.length_drop]
  simp [slice, List.drop_drop, Nat.add_comm]

/-- A payload no longer than the maximum: one block, and under `reference` an empty one after a full one. -/
theorem blocksOf_le (pol : SplitPolicy) {payload : ByteSeq} {m : Nat} (h0 : payload ≠ []) (h : payload.length ≤ m)
    (u : Bool) :
    blocksOf pol payload m u =
      if payload.length = m ∧ pol = .reference then [(payload, u), ([], u)] else [(payload, u)] := by
  have hpos : 0 < payload.length := List.length_pos_of_ne_nil h0
  rw [blocksOf, split_le pol hpos h]
  split_ifs <;> simp [slice]

/-- The blocks of a payload are the payload (R125). -/
theorem payloadOf_blocksOf (pol : SplitPolicy) {m : Nat} (hm : 1 ≤ m) (u : Bool) (payload : ByteSeq) :
    payloadOf (blocksOf pol payload m u) = payload := by
  induction hn : payload.length using Nat.strong_induction_on generalizing payload with
  | _ n ih =>
    by_cases hgt : m < payload.length
    · rw [blocksOf_gt pol hm hgt, payloadOf_cons, ih (payload.drop m).length (by simp; omega) _ rfl]
      simp
    · by_cases h0 : payload = []
      · subst h0; rw [blocksOf_nil]; rfl
      · rw [blocksOf_le pol h0 (by omega)]
        split_ifs <;> simp

/-- Under `ceil` every block is one the reader reads as a block (R125). -/
theorem blocksOf_legal {m : Nat} (hm : 1 ≤ m) (hm' : m < 2 ^ 31) (u : Bool) (payload : ByteSeq) :
    RecordsLegal (blocksOf .ceil payload m u) := by
  intro r hr
  obtain ⟨g, hg, rfl⟩ := List.mem_map.1 hr
  have hb := split_mem_bound hm hg
  have := hb.2.2 rfl
  simp only
  rw [slice_length (by omega)]
  omega

/-- The blocks of a frame share its flag (R126). -/
theorem allUncompressed_blocksOf (pol : SplitPolicy) {m : Nat} (hm : 1 ≤ m) (u : Bool) (payload : ByteSeq) :
    allUncompressed (blocksOf pol payload m u) = (u || payload.isEmpty) := by
  have hne : payload ≠ [] → blocksOf pol payload m u ≠ [] := by
    intro h0 he
    have := payloadOf_blocksOf pol hm u payload
    rw [he] at this; exact h0 this.symm
  by_cases h0 : payload = []
  · subst h0; rw [blocksOf_nil]; simp
  · have hall : ∀ r ∈ blocksOf pol payload m u, r.2 = u := by
      intro r hr
      obtain ⟨g, -, rfl⟩ := List.mem_map.1 hr; rfl
    have hemp : payload.isEmpty = false := by simpa using h0
    rw [hemp, Bool.or_false]
    cases u
    · obtain ⟨r, hr⟩ := List.exists_mem_of_ne_nil _ (hne h0)
      rw [allUncompressed, List.all_eq_false]
      exact ⟨r, hr, by simp [hall r hr]⟩
    · rw [allUncompressed, List.all_eq_true]
      intro r hr; exact hall r hr

/-- The length of the writer's output (R126). -/
theorem writeBlocks_length (pol : SplitPolicy) (payload : ByteSeq) {m : Nat} (hm : 1 ≤ m) (u : Bool) :
    (writeBlocks pol payload m u).length = payload.length + 4 * (split pol payload.length m).length + 4 := by
  rw [writeBlocks_eq pol payload hm, List.length_append, length_records, payloadOf_blocksOf pol hm, blocksOf_length]
  rfl

/-- The reader gives back what the writer laid out under `ceil` (R133). -/
theorem readBlocks_writeBlocks {m : Nat} (hm : 1 ≤ m) (hm' : m < 2 ^ 31) (u : Bool) (payload pre post : ByteSeq)
    {o : Nat} (ho : pre.length = o) :
    readBlocks (pre ++ (writeBlocks .ceil payload m u ++ post)) o =
      .ok { payload := payload, allUnc := u || payload.isEmpty,
            newOffset := o + (writeBlocks .ceil payload m u).length,
            count := (split .ceil payload.length m).length } := by
  have hl := blocksOf_legal hm hm' u payload
  rw [writeBlocks_eq .ceil payload hm, List.append_assoc, readBlocks_records hl false pre post ho,
    payloadOf_blocksOf .ceil hm, allUncompressed_blocksOf .ceil hm, blocksOf_length]
  simp [Nat.add_assoc]

/-- Under `reference` a payload that is a nonzero multiple of the maximum ends with a zero-length block (R124). -/
theorem blocksOf_reference_multiple {m : Nat} (u : Bool) {payload : ByteSeq} (h0 : payload ≠ [])
    (hmul : payload.length % m = 0) :
    blocksOf .reference payload m u = blocksOf .ceil payload m u ++ [([], u)] := by
  have hpos : 0 < payload.length := List.length_pos_of_ne_nil h0
  have hq : payload.length / m * m = payload.length := by
    have := Nat.div_add_mod payload.length m; rw [Nat.mul_comm]; omega
  simp [blocksOf, split, hasRemainderRange, hpos, hmul, hq, slice]

/-- Under `reference` the reader stops at the zero-length block, four bytes early (R133). -/
theorem readBlocks_writeBlocks_reference {m : Nat} (hm : 1 ≤ m) (hm' : m < 2 ^ 31) (u : Bool)
    {payload : ByteSeq} (h0 : payload ≠ []) (hmul : payload.length % m = 0) (pre post : ByteSeq)
    {o : Nat} (ho : pre.length = o) :
    readBlocks (pre ++ (writeBlocks .reference payload m u ++ post)) o =
      .ok { payload := payload, allUnc := u,
            newOffset := o + (writeBlocks .reference payload m u).length - 4,
            count := payload.length / m } := by
  have hl := blocksOf_legal hm hm' u payload
  have hemp : payload.isEmpty = false := by simpa using h0
  have hcount : (split .ceil payload.length m).length = payload.length / m := by
    rw [split_length]; simp [hasRemainderRange, hmul]
  have hshape : pre ++ (writeBlocks .reference payload m u ++ post)
      = pre ++ (records (blocksOf .ceil payload m u) ++ (sentinel u ++ (sentinel false ++ post))) := by
    rw [writeBlocks_eq .reference payload hm, blocksOf_reference_multiple u h0 hmul, records_append]
    simp [encodeBsf_zero]
  have hlen : (writeBlocks .reference payload m u).length = (records (blocksOf .ceil payload m u)).length + 8 := by
    rw [writeBlocks_eq .reference payload hm, blocksOf_reference_multiple u h0 hmul, records_append]
    simp
  rw [hshape, readBlocks_records hl u pre _ ho, payloadOf_blocksOf .ceil hm, allUncompressed_blocksOf .ceil hm,
    blocksOf_length, hcount, hemp, hlen]
  simp; omega

/-- Outside that case the two policies split alike (R124). -/
theorem split_reference_eq_ceil {n m : Nat} (h : n = 0 ∨ n % m ≠ 0) : split .reference n m = split .ceil n m := by
  have : hasRemainderRange .reference n m = hasRemainderRange .ceil n m := by
    rcases h with rfl | h
    · simp [hasRemainderRange]
    · have h0 : 0 < n := by
        rcases Nat.eq_zero_or_pos n with rfl | h'
        · simp at h
        · exact h'
      have h1 : 0 < n % m := Nat.pos_of_ne_zero h
      simp [hasRemainderRange, h0, h1]
  rw [split, split, this]

end Sys2Proof.Machine
end

