-- ==== Sys2Proof/Laws/HeaderCodec.lean ====
section
/-! SUPPORT. The frame-header codec (spec/40_header_codec.md): the layout of an encoded header, and what decoding answers on a
layout. -/

namespace Sys2Proof.Machine

theorem magic_bytes : le32 magic = [0x04, 0x22, 0x4D, 0x18] := by decide

@[simp] theorem descriptorBytes_length (flg bd : Byte) (csize : Word64) : (descriptorBytes flg bd csize).length = 10 := rfl

/-- The independence bit by the payload length alone (R102). -/
theorem indep_eq (n : Nat) : indep n = decide (n < 4000000) := by
  rw [indep, Bool.eq_iff_iff, decide_eq_true_iff, decide_eq_true_iff, classOf]
  split_ifs <;> simp only [classMax] <;> omega

/-- The header's bytes from its fields (R76, R77, R83). -/
def headerBytes (p : Params) (flg bd : Byte) (csize : Word64) : ByteSeq :=
  le32 magic ++ descriptorBytes flg bd csize ++ [headerChecksum p (descriptorBytes flg bd csize)]

theorem encodeHeader_eq (p : Params) (l : Word64) (n : Nat) :
    encodeHeader p l n = headerBytes p (flagsByte p n) (p.bdOfClass (classOf n)) l := rfl

@[simp] theorem encodeHeader_length (p : Params) (l : Word64) (n : Nat) : (encodeHeader p l n).length = 15 := rfl

/-- Decoding on a container that has the magic number and 15 bytes: only the checksum byte decides (R106, R108). -/
theorem decodeHeader_layout (p : Params) (flg bd hc : Byte) (csize : Word64) (post : ByteSeq) :
    decodeHeader p (le32 magic ++ (descriptorBytes flg bd csize ++ hc :: post)) =
      if headerChecksum p (descriptorBytes flg bd csize) = hc then
        .ok { flg := flg, bd := bd, csize := csize, hc := hc }
      else .error .headerChecksumMismatch := by
  have h1 : slice (le32 magic ++ (descriptorBytes flg bd csize ++ hc :: post)) 0 4 = le32 magic := rfl
  have h2 : slice (le32 magic ++ (descriptorBytes flg bd csize ++ hc :: post)) 4 10 = descriptorBytes flg bd csize := rfl
  have h3 : slice (le32 magic ++ (descriptorBytes flg bd csize ++ hc :: post)) 6 8 = le64 csize := rfl
  have h4 : byteAt (le32 magic ++ (descriptorBytes flg bd csize ++ hc :: post)) 14 = hc := rfl
  have hlen : (le32 magic ++ (descriptorBytes flg bd csize ++ hc :: post)).length = 15 + post.length := by
    simp; omega
  rw [decodeHeader, if_neg (by omega), h1, unle32_le32, if_neg (by simp), hdrLen, if_neg (by omega), h2, h3,
    unle64_le64, h4]
  by_cases h : headerChecksum p (descriptorBytes flg bd csize) = hc
  · rw [if_pos h, if_neg (by simpa using h)]; rfl
  · rw [if_neg h, if_pos h]

theorem decodeHeader_headerBytes (p : Params) (flg bd : Byte) (csize : Word64) (post : ByteSeq) :
    decodeHeader p (headerBytes p flg bd csize ++ post) =
      .ok { flg := flg, bd := bd, csize := csize, hc := headerChecksum p (descriptorBytes flg bd csize) } := by
  have := decodeHeader_layout p flg bd (headerChecksum p (descriptorBytes flg bd csize)) csize post
  rw [if_pos rfl] at this
  rw [← this, headerBytes]; simp

/-- A sequence of more than `n` bytes is a byte and a sequence of at least `n`. -/
theorem exists_cons_of_le {n : Nat} {s : ByteSeq} (h : n + 1 ≤ s.length) : ∃ b t, s = b :: t ∧ n ≤ t.length := by
  match s, h with
  | b :: t, h => exact ⟨b, t, rfl, by simpa using h⟩

/-- A header that decodes is laid out as an encoded header is. -/
theorem decodeHeader_ok {p : Params} {c : ByteSeq} {h : FrameHeader} (hd : decodeHeader p c = .ok h) :
    ∃ post, c = headerBytes p h.flg h.bd h.csize ++ post ∧
      h.hc = headerChecksum p (descriptorBytes h.flg h.bd h.csize) := by
  rw [decodeHeader] at hd
  split_ifs at hd with h4 hm h15 hc
  cases hd
  have hl : 14 + 1 ≤ c.length := by rw [hdrLen] at h15; omega
  obtain ⟨b0, c1, rfl, h101⟩ := exists_cons_of_le (n := 14) hl
  obtain ⟨b1, c2, rfl, h102⟩ := exists_cons_of_le (n := 13) h101
  obtain ⟨b2, c3, rfl, h103⟩ := exists_cons_of_le (n := 12) h102
  obtain ⟨b3, c4, rfl, h104⟩ := exists_cons_of_le (n := 11) h103
  obtain ⟨b4, c5, rfl, h105⟩ := exists_cons_of_le (n := 10) h104
  obtain ⟨b5, c6, rfl, h106⟩ := exists_cons_of_le (n := 9) h105
  obtain ⟨b6, c7, rfl, h107⟩ := exists_cons_of_le (n := 8) h106
  obtain ⟨b7, c8, rfl, h108⟩ := exists_cons_of_le (n := 7) h107
  obtain ⟨b8, c9, rfl, h109⟩ := exists_cons_of_le (n := 6) h108
  obtain ⟨b9, c10, rfl, h110⟩ := exists_cons_of_le (n := 5) h109
  obtain ⟨b10, c11, rfl, h111⟩ := exists_cons_of_le (n := 4) h110
  obtain ⟨b11, c12, rfl, h112⟩ := exists_cons_of_le (n := 3) h111
  obtain ⟨b12, c13, rfl, h113⟩ := exists_cons_of_le (n := 2) h112
  obtain ⟨b13, c14, rfl, h114⟩ := exists_cons_of_le (n := 1) h113
  obtain ⟨b14, post, rfl, -⟩ := exists_cons_of_le (n := 0) h114
  have hmag : [b0, b1, b2, b3] = le32 magic := by
    rw [← of_not_not hm]; exact (le32_unle32 (s := [b0, b1, b2, b3]) rfl).symm
  have hcs : le64 (unle64 [b6, b7, b8, b9, b10, b11, b12, b13]) = [b6, b7, b8, b9, b10, b11, b12, b13] :=
    le64_unle64 rfl
  have hk : headerChecksum p [b4, b5, b6, b7, b8, b9, b10, b11, b12, b13] = b14 := of_not_not hc
  have hd : descriptorBytes b4 b5 (unle64 [b6, b7, b8, b9, b10, b11, b12, b13])
      = [b4, b5, b6, b7, b8, b9, b10, b11, b12, b13] := by rw [descriptorBytes, hcs]
  refine ⟨post, ?_, ?_⟩
  · change _ = headerBytes p b4 b5 (unle64 [b6, b7, b8, b9, b10, b11, b12, b13]) ++ post
    rw [headerBytes, hd, hk, ← hmag]; rfl
  · change b14 = headerChecksum p (descriptorBytes b4 b5 (unle64 [b6, b7, b8, b9, b10, b11, b12, b13]))
    rw [hd, hk]

/-- Bytes after the header are not read (R109). -/
theorem decodeHeader_append {p : Params} {c : ByteSeq} {h : FrameHeader} (hd : decodeHeader p c = .ok h)
    (t : ByteSeq) : decodeHeader p (c ++ t) = .ok h := by
  obtain ⟨post, rfl, hh⟩ := decodeHeader_ok hd
  rw [List.append_assoc, decodeHeader_headerBytes, ← hh]

theorem decodeHeader_length {p : Params} {c : ByteSeq} {h : FrameHeader} (hd : decodeHeader p c = .ok h) :
    15 ≤ c.length := by
  obtain ⟨post, rfl, -⟩ := decodeHeader_ok hd
  simp [headerBytes]; omega

end Sys2Proof.Machine
end

