-- ==== Sys2Proof/Laws/State.lean ====
section
/-! SUPPORT. One lemma per field per update of the state, and the read-after-write lemmas of the buffers. -/

namespace Sys2Proof.Machine

/-! ### Buffers -/

@[simp] theorem Memory.buf_setBuf_same (m : Memory) (b : BufName) (t : ByteSeq) : (m.setBuf b t).buf b = t := by
  cases b <;> rfl

theorem Memory.buf_setBuf_ne (m : Memory) {b b' : BufName} (h : b' ≠ b) (t : ByteSeq) :
    (m.setBuf b t).buf b' = m.buf b' := by
  cases b <;> cases b' <;> first | rfl | exact absurd rfl h

/-- Replacing a buffer keeps the form of memory when the new content fits (R31, R33). -/
theorem Memory.setBuf_wf {p : Params} {m : Memory} (hm : m.wf p = true) {b : BufName} {t : ByteSeq}
    (ht : fits p b t = true) : (m.setBuf b t).wf p = true := by
  have ht' : t.length ≤ p.cap b := by simpa [fits] using ht
  simp only [Memory.wf, Bool.and_eq_true, decide_eq_true_iff] at hm ⊢
  cases b <;> exact ⟨⟨by first | exact ht' | exact hm.1.1, by first | exact ht' | exact hm.1.2⟩,
    by first | exact ht' | exact hm.2⟩

/-- Memory has its form at reset, whatever the capacities. -/
theorem Memory.reset_wf (p : Params) : State.reset.mem.wf p = true := by
  simp [Memory.wf, State.reset]

/-- Two memories with the same buffers are the same. -/
theorem Memory.ext_buf {m m' : Memory} (h : ∀ b, m.buf b = m'.buf b) : m = m' := by
  obtain ⟨c, p, f⟩ := m
  obtain ⟨c', p', f'⟩ := m'
  have h1 : c = c' := h .cont
  have h2 : p = p' := h .payl
  have h3 : f = f' := h .fram
  rw [h1, h2, h3]

@[simp] theorem Memory.setBuf_cont (m : Memory) (t : ByteSeq) : m.setBuf .cont t = { m with cont := t } := rfl

@[simp] theorem Memory.setBuf_payl (m : Memory) (t : ByteSeq) : m.setBuf .payl t = { m with payl := t } := rfl

@[simp] theorem Memory.setBuf_fram (m : Memory) (t : ByteSeq) : m.setBuf .fram t = { m with fram := t } := rfl

/-! ### `State.setBuf` -/

@[simp] theorem State.setBuf_cmd (s : State) (b : BufName) (t : ByteSeq) : (s.setBuf b t).cmd = s.cmd := rfl

@[simp] theorem State.setBuf_status (s : State) (b : BufName) (t : ByteSeq) : (s.setBuf b t).status = s.status := rfl

@[simp] theorem State.setBuf_err (s : State) (b : BufName) (t : ByteSeq) : (s.setBuf b t).err = s.err := rfl

@[simp] theorem State.setBuf_arg0 (s : State) (b : BufName) (t : ByteSeq) : (s.setBuf b t).arg0 = s.arg0 := rfl

@[simp] theorem State.setBuf_arg1 (s : State) (b : BufName) (t : ByteSeq) : (s.setBuf b t).arg1 = s.arg1 := rfl

@[simp] theorem State.setBuf_res0 (s : State) (b : BufName) (t : ByteSeq) : (s.setBuf b t).res0 = s.res0 := rfl

@[simp] theorem State.setBuf_res1 (s : State) (b : BufName) (t : ByteSeq) : (s.setBuf b t).res1 = s.res1 := rfl

@[simp] theorem State.setBuf_off (s : State) (b : BufName) (t : ByteSeq) : (s.setBuf b t).off = s.off := rfl

@[simp] theorem State.setBuf_hdrFlg (s : State) (b : BufName) (t : ByteSeq) : (s.setBuf b t).hdrFlg = s.hdrFlg := rfl

@[simp] theorem State.setBuf_hdrBd (s : State) (b : BufName) (t : ByteSeq) : (s.setBuf b t).hdrBd = s.hdrBd := rfl

@[simp] theorem State.setBuf_hdrCsize (s : State) (b : BufName) (t : ByteSeq) : (s.setBuf b t).hdrCsize = s.hdrCsize := rfl

@[simp] theorem State.setBuf_hdrHc (s : State) (b : BufName) (t : ByteSeq) : (s.setBuf b t).hdrHc = s.hdrHc := rfl

@[simp] theorem State.setBuf_mem (s : State) (b : BufName) (t : ByteSeq) : (s.setBuf b t).mem = s.mem.setBuf b t := rfl

@[simp] theorem State.setBuf_host (s : State) (b : BufName) (t : ByteSeq) : (s.setBuf b t).host = s.host := rfl

@[simp] theorem State.setBuf_bus (s : State) (b : BufName) (t : ByteSeq) : (s.setBuf b t).bus = s.bus := rfl

/-! ### `State.setHeader` (R27) -/

@[simp] theorem State.setHeader_cmd (s : State) (h : FrameHeader) : (s.setHeader h).cmd = s.cmd := rfl

@[simp] theorem State.setHeader_status (s : State) (h : FrameHeader) : (s.setHeader h).status = s.status := rfl

@[simp] theorem State.setHeader_err (s : State) (h : FrameHeader) : (s.setHeader h).err = s.err := rfl

@[simp] theorem State.setHeader_arg0 (s : State) (h : FrameHeader) : (s.setHeader h).arg0 = s.arg0 := rfl

@[simp] theorem State.setHeader_arg1 (s : State) (h : FrameHeader) : (s.setHeader h).arg1 = s.arg1 := rfl

@[simp] theorem State.setHeader_res0 (s : State) (h : FrameHeader) : (s.setHeader h).res0 = s.res0 := rfl

@[simp] theorem State.setHeader_res1 (s : State) (h : FrameHeader) : (s.setHeader h).res1 = s.res1 := rfl

@[simp] theorem State.setHeader_off (s : State) (h : FrameHeader) : (s.setHeader h).off = s.off := rfl

@[simp] theorem State.setHeader_hdrFlg (s : State) (h : FrameHeader) : (s.setHeader h).hdrFlg = h.flg := rfl

@[simp] theorem State.setHeader_hdrBd (s : State) (h : FrameHeader) : (s.setHeader h).hdrBd = h.bd := rfl

@[simp] theorem State.setHeader_hdrCsize (s : State) (h : FrameHeader) : (s.setHeader h).hdrCsize = h.csize := rfl

@[simp] theorem State.setHeader_hdrHc (s : State) (h : FrameHeader) : (s.setHeader h).hdrHc = h.hc := rfl

@[simp] theorem State.setHeader_mem (s : State) (h : FrameHeader) : (s.setHeader h).mem = s.mem := rfl

@[simp] theorem State.setHeader_host (s : State) (h : FrameHeader) : (s.setHeader h).host = s.host := rfl

@[simp] theorem State.setHeader_bus (s : State) (h : FrameHeader) : (s.setHeader h).bus = s.bus := rfl

/-! ### `State.succeed` (R176) -/

@[simp] theorem State.succeed_cmd (s : State) : (s.succeed).cmd = s.cmd := rfl

@[simp] theorem State.succeed_status (s : State) : (s.succeed).status = 0x01 := rfl

@[simp] theorem State.succeed_err (s : State) : (s.succeed).err = 0x00 := rfl

@[simp] theorem State.succeed_arg0 (s : State) : (s.succeed).arg0 = s.arg0 := rfl

@[simp] theorem State.succeed_arg1 (s : State) : (s.succeed).arg1 = s.arg1 := rfl

@[simp] theorem State.succeed_res0 (s : State) : (s.succeed).res0 = s.res0 := rfl

@[simp] theorem State.succeed_res1 (s : State) : (s.succeed).res1 = s.res1 := rfl

@[simp] theorem State.succeed_off (s : State) : (s.succeed).off = s.off := rfl

@[simp] theorem State.succeed_hdrFlg (s : State) : (s.succeed).hdrFlg = s.hdrFlg := rfl

@[simp] theorem State.succeed_hdrBd (s : State) : (s.succeed).hdrBd = s.hdrBd := rfl

@[simp] theorem State.succeed_hdrCsize (s : State) : (s.succeed).hdrCsize = s.hdrCsize := rfl

@[simp] theorem State.succeed_hdrHc (s : State) : (s.succeed).hdrHc = s.hdrHc := rfl

@[simp] theorem State.succeed_mem (s : State) : (s.succeed).mem = s.mem := rfl

@[simp] theorem State.succeed_host (s : State) : (s.succeed).host = s.host := rfl

@[simp] theorem State.succeed_bus (s : State) : (s.succeed).bus = s.bus := rfl

/-! ### `State.raise` (R176) -/

@[simp] theorem State.raise_cmd (s : State) (k : ErrKind) : (s.raise k).cmd = s.cmd := rfl

@[simp] theorem State.raise_status (s : State) (k : ErrKind) : (s.raise k).status = 0x03 := rfl

@[simp] theorem State.raise_err (s : State) (k : ErrKind) : (s.raise k).err = k.code := rfl

@[simp] theorem State.raise_arg0 (s : State) (k : ErrKind) : (s.raise k).arg0 = s.arg0 := rfl

@[simp] theorem State.raise_arg1 (s : State) (k : ErrKind) : (s.raise k).arg1 = s.arg1 := rfl

@[simp] theorem State.raise_res0 (s : State) (k : ErrKind) : (s.raise k).res0 = s.res0 := rfl

@[simp] theorem State.raise_res1 (s : State) (k : ErrKind) : (s.raise k).res1 = s.res1 := rfl

@[simp] theorem State.raise_off (s : State) (k : ErrKind) : (s.raise k).off = s.off := rfl

@[simp] theorem State.raise_hdrFlg (s : State) (k : ErrKind) : (s.raise k).hdrFlg = s.hdrFlg := rfl

@[simp] theorem State.raise_hdrBd (s : State) (k : ErrKind) : (s.raise k).hdrBd = s.hdrBd := rfl

@[simp] theorem State.raise_hdrCsize (s : State) (k : ErrKind) : (s.raise k).hdrCsize = s.hdrCsize := rfl

@[simp] theorem State.raise_hdrHc (s : State) (k : ErrKind) : (s.raise k).hdrHc = s.hdrHc := rfl

@[simp] theorem State.raise_mem (s : State) (k : ErrKind) : (s.raise k).mem = s.mem := rfl

@[simp] theorem State.raise_host (s : State) (k : ErrKind) : (s.raise k).host = s.host := rfl

@[simp] theorem State.raise_bus (s : State) (k : ErrKind) : (s.raise k).bus = s.bus := rfl

/-! ### `State.assertReset` (R34) -/

@[simp] theorem State.assertReset_cmd (s : State) : (s.assertReset).cmd = 0 := rfl

@[simp] theorem State.assertReset_status (s : State) : (s.assertReset).status = 0 := rfl

@[simp] theorem State.assertReset_err (s : State) : (s.assertReset).err = 0 := rfl

@[simp] theorem State.assertReset_arg0 (s : State) : (s.assertReset).arg0 = 0 := rfl

@[simp] theorem State.assertReset_arg1 (s : State) : (s.assertReset).arg1 = 0 := rfl

@[simp] theorem State.assertReset_res0 (s : State) : (s.assertReset).res0 = 0 := rfl

@[simp] theorem State.assertReset_res1 (s : State) : (s.assertReset).res1 = 0 := rfl

@[simp] theorem State.assertReset_off (s : State) : (s.assertReset).off = 0 := rfl

@[simp] theorem State.assertReset_hdrFlg (s : State) : (s.assertReset).hdrFlg = 0 := rfl

@[simp] theorem State.assertReset_hdrBd (s : State) : (s.assertReset).hdrBd = 0 := rfl

@[simp] theorem State.assertReset_hdrCsize (s : State) : (s.assertReset).hdrCsize = 0 := rfl

@[simp] theorem State.assertReset_hdrHc (s : State) : (s.assertReset).hdrHc = 0 := rfl

@[simp] theorem State.assertReset_mem (s : State) : (s.assertReset).mem = { cont := [], payl := [], fram := [] } := rfl

@[simp] theorem State.assertReset_host (s : State) : (s.assertReset).host = s.host := rfl

@[simp] theorem State.assertReset_bus (s : State) : (s.assertReset).bus = s.bus := rfl

/-! ### The commit of a command (R176) -/

@[simp] theorem State.complete_ok (s t : State) : s.complete (.ok t) = t.succeed := rfl

@[simp] theorem State.complete_error (s : State) (k : ErrKind) : s.complete (.error k) = s.raise k := rfl

@[simp] theorem ErrKind.code_ne_zero (k : ErrKind) : k.code ≠ 0 := by cases k <;> decide

theorem ErrKind.code_injective {k k' : ErrKind} (h : k.code = k'.code) : k = k' := by
  cases k <;> cases k' <;> first | rfl | exact absurd h (by decide)

@[simp] theorem State.succeed_errFlag (s : State) : s.succeed.errFlag = false :=
  (by decide : (0x01 : Byte).getLsbD 1 = false)

@[simp] theorem State.raise_errFlag (s : State) (k : ErrKind) : (s.raise k).errFlag = true :=
  (by decide : (0x03 : Byte).getLsbD 1 = true)

@[simp] theorem State.succeed_doneFlag (s : State) : s.succeed.doneFlag = true :=
  (by decide : (0x01 : Byte).getLsbD 0 = true)

@[simp] theorem State.raise_doneFlag (s : State) (k : ErrKind) : (s.raise k).doneFlag = true :=
  (by decide : (0x03 : Byte).getLsbD 0 = true)

/-- What a commit can leave: the writes of a success with `STATUS` and `ERR` of a success, or the old state with `STATUS`
and `ERR` of an error kind (R176). -/
theorem State.complete_cases (s : State) (r : Except ErrKind State) :
    (∃ t, r = .ok t ∧ s.complete r = t.succeed ∧ (s.complete r).errFlag = false) ∨
      (∃ k, r = .error k ∧ s.complete r = s.raise k ∧ (s.complete r).errFlag = true) := by
  cases r with
  | ok t => exact .inl ⟨t, rfl, rfl, t.succeed_errFlag⟩
  | error k => exact .inr ⟨k, rfl, rfl, s.raise_errFlag k⟩

end Sys2Proof.Machine
end

