-- ==== Sys2Proof/Laws/Commands.lean ====
section
/-! SUPPORT. One inversion lemma per command: what it can commit, and with which error kinds it can end. Later proofs cite
these and do not unfold a command. -/

namespace Sys2Proof.Machine

/-- `exec` is the command at the modelled block's parameters, completed. -/
theorem exec_eq (i : Instr) (s : State) : exec i s = .next (commandWith params i s) := by cases i <;> rfl

theorem fits_iff {p : Params} {b : BufName} {t : ByteSeq} : fits p b t = true ↔ t.length ≤ p.cap b := by
  simp [fits]

/-- What `HDR_ENC` can do (R104). -/
theorem runHdrEnc_cases (p : Params) (s : State) :
    (15 ≤ p.capFram ∧ runHdrEnc p s =
      .ok { s.setBuf .fram (encodeHeader p s.arg0 s.arg1.toNat) with
              res0 := p.classCode (classOf s.arg1.toNat)
              res1 := BitVec.ofNat 64 (classMax (classOf s.arg1.toNat)) }) ∨
    (p.capFram < 15 ∧ runHdrEnc p s = .error .capacityExceeded) := by
  by_cases h : 15 ≤ p.capFram
  · exact .inl ⟨h, by rw [runHdrEnc, if_pos (fits_iff.2 (by simpa [Params.cap] using h))]⟩
  · have hf : ¬ (fits p .fram (encodeHeader p s.arg0 s.arg1.toNat) = true) := by
      rw [fits_iff]; simpa [Params.cap] using h
    exact .inr ⟨by omega, by simp only [runHdrEnc]; rw [if_neg hf]⟩

/-- What `HDR_DEC` can do (R109). -/
theorem runHdrDec_cases (p : Params) (s : State) :
    (∃ h, decodeHeader p s.mem.fram = .ok h ∧ runHdrDec p s = .ok { s.setHeader h with off := 15 }) ∨
    (∃ k, decodeHeader p s.mem.fram = .error k ∧ runHdrDec p s = .error k) := by
  unfold runHdrDec
  cases h : decodeHeader p s.mem.fram with
  | ok h' => exact .inl ⟨h', rfl, rfl⟩
  | error k => exact .inr ⟨k, rfl, rfl⟩

/-- What `BSF_ENC` can do (R121). -/
theorem runBsfEnc_cases (p : Params) (s : State) :
    (lengthOperandOk s.arg0 = true ∧ flagOperandOk s.arg1 = true ∧ 4 ≤ p.capFram ∧ runBsfEnc p s =
      .ok { s.setBuf .fram (encodeBsf s.arg0.toNat (flagOperand s.arg1)) with
              res0 := (bsfWord s.arg0.toNat (flagOperand s.arg1)).setWidth 64 }) ∨
    (lengthOperandOk s.arg0 = true ∧ flagOperandOk s.arg1 = true ∧ p.capFram < 4 ∧
      runBsfEnc p s = .error .capacityExceeded) ∨
    ((lengthOperandOk s.arg0 = false ∨ flagOperandOk s.arg1 = false) ∧ runBsfEnc p s = .error .badOperand) := by
  unfold runBsfEnc
  cases h0 : lengthOperandOk s.arg0
  · simp
  · cases h1 : flagOperandOk s.arg1
    · simp
    · by_cases hc : 4 ≤ p.capFram
      · left; simp [fits, Params.cap, hc, encodeBsf]
      · right; left; simp [fits, Params.cap, hc]; omega

/-- What `BSF_DEC` can do (R123). -/
theorem runBsfDec_cases (p : Params) (s : State) :
    (s.off.toNat + 4 ≤ s.mem.fram.length ∧ runBsfDec p s =
      .ok { s with res0 := BitVec.ofNat 64 (decodeBsf (slice s.mem.fram s.off.toNat 4)).1,
                   res1 := boolResult (decodeBsf (slice s.mem.fram s.off.toNat 4)).2 }) ∨
    (s.mem.fram.length < s.off.toNat + 4 ∧ runBsfDec p s = .error .truncatedInput) := by
  unfold runBsfDec
  by_cases h : s.off.toNat + 4 > s.mem.fram.length
  · right; exact ⟨h, by rw [if_pos h]⟩
  · left; exact ⟨by omega, by rw [if_neg h]⟩

/-- What `BLK_WRITE` can do (R127). -/
theorem runBlkWrite_cases (p : Params) (s : State) :
    (maxBlockOperandOk s.arg0 = true ∧ flagOperandOk s.arg1 = true ∧
      (writeBlocks p.splitPolicy s.mem.payl s.arg0.toNat (flagOperand s.arg1)).length ≤ p.capFram ∧
      runBlkWrite p s =
        .ok { s.setBuf .fram (writeBlocks p.splitPolicy s.mem.payl s.arg0.toNat (flagOperand s.arg1)) with
                res0 := BitVec.ofNat 64 (split p.splitPolicy s.mem.payl.length s.arg0.toNat).length }) ∨
    (maxBlockOperandOk s.arg0 = true ∧ flagOperandOk s.arg1 = true ∧
      p.capFram < (writeBlocks p.splitPolicy s.mem.payl s.arg0.toNat (flagOperand s.arg1)).length ∧
      runBlkWrite p s = .error .capacityExceeded) ∨
    ((maxBlockOperandOk s.arg0 = false ∨ flagOperandOk s.arg1 = false) ∧ runBlkWrite p s = .error .badOperand) := by
  unfold runBlkWrite
  cases h0 : maxBlockOperandOk s.arg0
  · simp
  · cases h1 : flagOperandOk s.arg1
    · simp
    · by_cases hc : (writeBlocks p.splitPolicy s.mem.payl s.arg0.toNat (flagOperand s.arg1)).length ≤ p.capFram
      · left; simp [fits, Params.cap, hc]
      · right; left; simp [fits, Params.cap, hc]; omega

/-- What `CSUM_GEN` can do (R142). -/
theorem runCsumGen_cases (p : Params) (s : State) :
    (4 ≤ p.capFram ∧ runCsumGen p s =
      .ok { s.setBuf .fram (contentChecksum p s.mem.cont) with res0 := (p.hash32 s.mem.cont).setWidth 64 }) ∨
    (p.capFram < 4 ∧ runCsumGen p s = .error .capacityExceeded) := by
  unfold runCsumGen
  by_cases hc : 4 ≤ p.capFram
  · left; simp [fits, Params.cap, hc, contentChecksum]
  · right; simp [fits, Params.cap, hc, contentChecksum]; omega

/-- What `BLK_READ` can do (R131). -/
theorem runBlkRead_cases (p : Params) (s : State) :
    (∃ r, readBlocks s.mem.fram s.off.toNat = .ok r ∧
      ((fits p .payl r.payload = true ∧ runBlkRead p s =
          .ok { s.setBuf .payl r.payload with
                  res0 := BitVec.ofNat 64 r.count, res1 := boolResult r.allUnc,
                  off := BitVec.ofNat 64 r.newOffset }) ∨
        (fits p .payl r.payload = false ∧ runBlkRead p s = .error .capacityExceeded))) ∨
    (readBlocks s.mem.fram s.off.toNat = .error .truncatedInput ∧ runBlkRead p s = .error .truncatedInput) := by
  unfold runBlkRead
  cases h : readBlocks s.mem.fram s.off.toNat with
  | ok r => cases hf : fits p .payl r.payload <;> simp [hf]
  | error k => rw [readBlocks_error h]; simp

/-- The check of a stored checksum succeeds with the hash it compared (R143). -/
theorem checkContent_ok {p : Params} {c : ByteSeq} {o : Nat} {x : ByteSeq} {h : Word32}
    (hc : checkContent p c o x = .ok h) :
    h = p.hash32 x ∧ o + 4 ≤ c.length ∧ p.hash32 x = unle32 (slice c o 4) := by
  rw [checkContent] at hc
  split_ifs at hc with h4 he
  cases hc
  exact ⟨rfl, by omega, of_not_not he⟩

/-- The check of a stored checksum on a layout (R143). -/
theorem checkContent_layout (p : Params) (pre f post x : ByteSeq) (hf : f.length = 4) {o : Nat} (ho : pre.length = o) :
    checkContent p (pre ++ (f ++ post)) o x =
      if p.hash32 x = unle32 f then .ok (p.hash32 x) else .error .contentChecksumMismatch := by
  rw [checkContent, if_neg (by simp; omega), slice_append ho hf]
  by_cases h : p.hash32 x = unle32 f
  · rw [if_neg (by simpa using h), if_pos h]
  · rw [if_pos h, if_neg h]

theorem checkContent_append {p : Params} {c : ByteSeq} {o : Nat} {x : ByteSeq} {h : Word32}
    (hc : checkContent p c o x = .ok h) (t : ByteSeq) : checkContent p (c ++ t) o x = .ok h := by
  obtain ⟨rfl, hl, he⟩ := checkContent_ok hc
  rw [checkContent, if_neg (by simp; omega), slice_append_left hl, if_neg (by simpa using he)]

/-- The two ways the check of a stored checksum fails (R143). -/
theorem checkContent_error {p : Params} {c : ByteSeq} {o : Nat} {x : ByteSeq} {k : ErrKind}
    (hc : checkContent p c o x = .error k) :
    (k = .truncatedInput ∧ c.length < o + 4) ∨
      (k = .contentChecksumMismatch ∧ o + 4 ≤ c.length ∧ p.hash32 x ≠ unle32 (slice c o 4)) := by
  rw [checkContent] at hc
  split_ifs at hc with h4 he
  · cases hc; exact .inl ⟨rfl, h4⟩
  · cases hc; exact .inr ⟨rfl, by omega, he⟩

/-- The ways a header fails to decode (R106). -/
theorem decodeHeader_error {p : Params} {c : ByteSeq} {k : ErrKind} (hd : decodeHeader p c = .error k) :
    k = .truncatedInput ∨ k = .magicMismatch ∨ k = .headerChecksumMismatch := by
  rw [decodeHeader] at hd
  split_ifs at hd <;> cases hd <;> simp

/-- The one way a content is not recovered (R151). -/
theorem recoverContent_error {p : Params} {r : BlockRun} {n : Word64} {k : ErrKind}
    (h : recoverContent p r n = .error k) : k = .decompressionFailed := by
  unfold recoverContent at h
  split_ifs at h
  cases hd : p.decompress r.payload r.payload.length n.toNat with
  | none => rw [hd] at h; cases h; rfl
  | some y =>
    rw [hd] at h; simp only at h
    split_ifs at h
    · cases h; rfl

/-- The error kinds of `DecodeFrame` (R155). -/
theorem decodeFrame_error {p : Params} {f : ByteSeq} {k : ErrKind} (h : decodeFrame p f = .error k) :
    k = .truncatedInput ∨ k = .magicMismatch ∨ k = .headerChecksumMismatch ∨ k = .decompressionFailed ∨
      k = .contentChecksumMismatch := by
  unfold decodeFrame at h
  cases hd : decodeHeader p f with
  | error k' =>
    rw [hd] at h; cases h
    rcases decodeHeader_error hd with rfl | rfl | rfl <;> simp
  | ok hh =>
    cases hr : readBlocks f hdrLen with
    | error k' => rw [hd] at h; simp only [hr] at h; cases h; rw [readBlocks_error hr]; simp
    | ok r =>
      cases hy : recoverContent p r hh.csize with
      | error k' => rw [hd] at h; simp only [hr, hy] at h; cases h; rw [recoverContent_error hy]; simp
      | ok y =>
        cases hw : checkContent p f r.newOffset y with
        | error k' =>
          rw [hd] at h; simp only [hr, hy, hw] at h; cases h
          rcases checkContent_error hw with ⟨rfl, -⟩ | ⟨rfl, -⟩ <;> simp
        | ok w => rw [hd] at h; simp only [hr, hy, hw] at h; cases h

/-- What `CSUM_CHK` can do (R143). -/
theorem runCsumChk_cases (p : Params) (s : State) :
    (∃ h, checkContent p s.mem.fram s.off.toNat s.mem.cont = .ok h ∧
      runCsumChk p s = .ok { s with res0 := h.setWidth 64 }) ∨
    (∃ k, checkContent p s.mem.fram s.off.toNat s.mem.cont = .error k ∧ runCsumChk p s = .error k) := by
  unfold runCsumChk
  cases h : checkContent p s.mem.fram s.off.toNat s.mem.cont with
  | ok h' => exact .inl ⟨h', rfl, rfl⟩
  | error k => exact .inr ⟨k, rfl, rfl⟩

/-- What `FRAME_ENC` can do (R154). -/
theorem runFrameEnc_cases (p : Params) (s : State) :
    (∃ c, p.compress s.mem.cont = some c ∧
      (((fits p .payl (assembleFrame p s.mem.cont c).payload && fits p .fram (assembleFrame p s.mem.cont c).container)
            = true ∧
          runFrameEnc p s =
            .ok { (s.setBuf .payl (assembleFrame p s.mem.cont c).payload).setBuf .fram
                    (assembleFrame p s.mem.cont c).container with
                    res0 := BitVec.ofNat 64 (assembleFrame p s.mem.cont c).blocks
                    res1 := boolResult (assembleFrame p s.mem.cont c).stored }) ∨
        ((fits p .payl (assembleFrame p s.mem.cont c).payload && fits p .fram (assembleFrame p s.mem.cont c).container)
            = false ∧ runFrameEnc p s = .error .capacityExceeded))) ∨
    (p.compress s.mem.cont = none ∧ runFrameEnc p s = .error .compressionFailed) := by
  unfold runFrameEnc encodeFrame
  cases h : p.compress s.mem.cont with
  | none => simp
  | some c =>
    left
    refine ⟨c, rfl, ?_⟩
    cases hf : (fits p .payl (assembleFrame p s.mem.cont c).payload &&
      fits p .fram (assembleFrame p s.mem.cont c).container) <;> simp [hf]

/-- What `DecodeFrame` returns, by its parts (R155). -/
theorem decodeFrame_ok {p : Params} {f : ByteSeq} {d : DecodedFrame} (h : decodeFrame p f = .ok d) :
    decodeHeader p f = .ok d.header ∧ readBlocks f 15 = .ok d.run ∧
      recoverContent p d.run d.header.csize = .ok d.content ∧
      checkContent p f d.run.newOffset d.content = .ok (p.hash32 d.content) ∧
      d.endOffset = d.run.newOffset + 4 := by
  unfold decodeFrame hdrLen at h
  cases hd : decodeHeader p f with
  | error k => rw [hd] at h; cases h
  | ok hh =>
    cases hr : readBlocks f 15 with
    | error k => rw [hd] at h; simp only [hr] at h; cases h
    | ok r =>
      cases hy : recoverContent p r hh.csize with
      | error k => rw [hd] at h; simp only [hr, hy] at h; cases h
      | ok y =>
        cases hw : checkContent p f r.newOffset y with
        | error k => rw [hd] at h; simp only [hr, hy, hw] at h; cases h
        | ok w =>
          rw [hd] at h; simp only [hr, hy, hw] at h; cases h
          obtain ⟨rfl, -, -⟩ := checkContent_ok hw
          exact ⟨rfl, rfl, hy, hw, rfl⟩

/-- `DecodeFrame` from its parts (R155). -/
theorem decodeFrame_of_parts {p : Params} {f : ByteSeq} {h : FrameHeader} {r : BlockRun} {y : ByteSeq} {w : Word32}
    (hh : decodeHeader p f = .ok h) (hr : readBlocks f 15 = .ok r) (hy : recoverContent p r h.csize = .ok y)
    (hw : checkContent p f r.newOffset y = .ok w) :
    decodeFrame p f = .ok { header := h, run := r, content := y, endOffset := r.newOffset + 4 } := by
  simp [decodeFrame, hdrLen, hh, hr, hy, hw]

/-- What `FRAME_DEC` can do (R156). -/
theorem runFrameDec_cases (p : Params) (s : State) :
    (∃ d, decodeFrame p s.mem.fram = .ok d ∧
      (((fits p .payl d.run.payload && fits p .cont d.content) = true ∧
          runFrameDec p s =
            .ok { ((s.setHeader d.header).setBuf .payl d.run.payload).setBuf .cont d.content with
                    res0 := BitVec.ofNat 64 d.run.count, res1 := boolResult d.run.allUnc,
                    off := BitVec.ofNat 64 d.endOffset }) ∨
        ((fits p .payl d.run.payload && fits p .cont d.content) = false ∧
          runFrameDec p s = .error .capacityExceeded))) ∨
    (∃ k, decodeFrame p s.mem.fram = .error k ∧ runFrameDec p s = .error k) := by
  unfold runFrameDec
  cases h : decodeFrame p s.mem.fram with
  | error k => simp
  | ok d =>
    left
    refine ⟨d, rfl, ?_⟩
    cases hf : (fits p .payl d.run.payload && fits p .cont d.content) <;> simp [hf]

/-! ### A command whose work is known -/

theorem commandWith_hdrDec_ok {p : Params} {s : State} {h : FrameHeader} (hd : decodeHeader p s.mem.fram = .ok h) :
    commandWith p .hdrDec s = State.succeed { s.setHeader h with off := 15 } := by
  simp only [commandWith, runCommand, runHdrDec, hd]; rfl

theorem commandWith_hdrDec_error {p : Params} {s : State} {k : ErrKind} (hd : decodeHeader p s.mem.fram = .error k) :
    commandWith p .hdrDec s = s.raise k := by
  simp only [commandWith, runCommand, runHdrDec, hd]; rfl

theorem commandWith_blkRead_ok {p : Params} {s : State} {r : BlockRun}
    (hr : readBlocks s.mem.fram s.off.toNat = .ok r) (hf : r.payload.length ≤ p.capPayl) :
    commandWith p .blkRead s = State.succeed
      { s.setBuf .payl r.payload with
          res0 := BitVec.ofNat 64 r.count, res1 := boolResult r.allUnc, off := BitVec.ofNat 64 r.newOffset } := by
  simp only [commandWith, runCommand, runBlkRead, hr]
  rw [if_pos (fits_iff.2 hf)]; rfl

theorem commandWith_blkRead_error {p : Params} {s : State} {k : ErrKind}
    (hr : readBlocks s.mem.fram s.off.toNat = .error k) : commandWith p .blkRead s = s.raise k := by
  simp only [commandWith, runCommand, runBlkRead, hr]; rfl

theorem commandWith_csumChk_ok {p : Params} {s : State} {h : Word32}
    (hc : checkContent p s.mem.fram s.off.toNat s.mem.cont = .ok h) :
    commandWith p .csumChk s = State.succeed { s with res0 := h.setWidth 64 } := by
  simp only [commandWith, runCommand, runCsumChk, hc]; rfl

theorem commandWith_csumChk_error {p : Params} {s : State} {k : ErrKind}
    (hc : checkContent p s.mem.fram s.off.toNat s.mem.cont = .error k) : commandWith p .csumChk s = s.raise k := by
  simp only [commandWith, runCommand, runCsumChk, hc]; rfl

theorem commandWith_frameEnc_ok {p : Params} {s : State} {c : ByteSeq} (hc : p.compress s.mem.cont = some c)
    (hp : (assembleFrame p s.mem.cont c).payload.length ≤ p.capPayl)
    (hf : (assembleFrame p s.mem.cont c).container.length ≤ p.capFram) :
    commandWith p .frameEnc s = State.succeed
      { (s.setBuf .payl (assembleFrame p s.mem.cont c).payload).setBuf .fram (assembleFrame p s.mem.cont c).container with
          res0 := BitVec.ofNat 64 (assembleFrame p s.mem.cont c).blocks
          res1 := boolResult (assembleFrame p s.mem.cont c).stored } := by
  simp only [commandWith, runCommand, runFrameEnc, encodeFrame, hc]
  rw [if_pos (by rw [Bool.and_eq_true]; exact ⟨fits_iff.2 hp, fits_iff.2 hf⟩)]; rfl

theorem commandWith_frameDec_ok {p : Params} {s : State} {d : DecodedFrame} (hd : decodeFrame p s.mem.fram = .ok d)
    (hp : d.run.payload.length ≤ p.capPayl) (hc : d.content.length ≤ p.capCont) :
    commandWith p .frameDec s = State.succeed
      { ((s.setHeader d.header).setBuf .payl d.run.payload).setBuf .cont d.content with
          res0 := BitVec.ofNat 64 d.run.count, res1 := boolResult d.run.allUnc, off := BitVec.ofNat 64 d.endOffset } := by
  simp only [commandWith, runCommand, runFrameDec, hd]
  rw [if_pos (by rw [Bool.and_eq_true]; exact ⟨fits_iff.2 hp, fits_iff.2 hc⟩)]; rfl

theorem commandWith_frameDec_error {p : Params} {s : State} {k : ErrKind} (hd : decodeFrame p s.mem.fram = .error k) :
    commandWith p .frameDec s = s.raise k := by
  simp only [commandWith, runCommand, runFrameDec, hd]; rfl

/-- A successful `FRAME_ENC` comes from an answer of the compressor whose frame fits (R154). -/
theorem frameEnc_success {p : Params} {s : State} (h : (commandWith p .frameEnc s).errFlag = false) :
    ∃ c, p.compress s.mem.cont = some c ∧ (assembleFrame p s.mem.cont c).payload.length ≤ p.capPayl ∧
      (assembleFrame p s.mem.cont c).container.length ≤ p.capFram := by
  rcases runFrameEnc_cases p s with ⟨c, hc, ⟨hf, -⟩ | ⟨-, he⟩⟩ | ⟨-, he⟩
  · rw [Bool.and_eq_true, fits_iff, fits_iff] at hf
    exact ⟨c, hc, hf.1, hf.2⟩
  · simp [commandWith, runCommand, he] at h
  · simp [commandWith, runCommand, he] at h

/-- A successful `FRAME_DEC` comes from a container that decodes to what fits (R156). -/
theorem frameDec_success {p : Params} {s : State} (h : (commandWith p .frameDec s).errFlag = false) :
    ∃ d, decodeFrame p s.mem.fram = .ok d ∧ d.run.payload.length ≤ p.capPayl ∧ d.content.length ≤ p.capCont := by
  rcases runFrameDec_cases p s with ⟨d, hd, ⟨hf, -⟩ | ⟨-, he⟩⟩ | ⟨k, -, he⟩
  · rw [Bool.and_eq_true, fits_iff, fits_iff] at hf
    exact ⟨d, hd, hf.1, hf.2⟩
  · simp [commandWith, runCommand, he] at h
  · simp [commandWith, runCommand, he] at h

/-- A successful `HDR_DEC` comes from a header that decodes (R109). -/
theorem hdrDec_success {p : Params} {s : State} (h : (commandWith p .hdrDec s).errFlag = false) :
    ∃ d, decodeHeader p s.mem.fram = .ok d := by
  rcases runHdrDec_cases p s with ⟨d, hd, -⟩ | ⟨k, -, he⟩
  · exact ⟨d, hd⟩
  · simp [commandWith, runCommand, he] at h

/-- A successful `BLK_READ` comes from a run of records that fits (R131). -/
theorem blkRead_success {p : Params} {s : State} (h : (commandWith p .blkRead s).errFlag = false) :
    ∃ r, readBlocks s.mem.fram s.off.toNat = .ok r ∧ r.payload.length ≤ p.capPayl := by
  rcases runBlkRead_cases p s with ⟨r, hr, ⟨hf, -⟩ | ⟨-, he⟩⟩ | ⟨-, he⟩
  · exact ⟨r, hr, fits_iff.1 hf⟩
  · simp [commandWith, runCommand, he] at h
  · simp [commandWith, runCommand, he] at h

/-- The capacities of well-formed parameters (R14). -/
theorem wf_caps {p : Params} (h : p.wf = true) : p.capCont < 2 ^ 64 ∧ p.capPayl < 2 ^ 64 ∧ p.capFram < 2 ^ 64 := by
  simp only [Params.wf, Bool.and_eq_true, decide_eq_true_iff] at h
  omega

/-- The form of memory, length by length (R33). -/
theorem Memory.wf_lengths {p : Params} {m : Memory} (h : m.wf p = true) :
    m.cont.length ≤ p.capCont ∧ m.payl.length ≤ p.capPayl ∧ m.fram.length ≤ p.capFram := by
  simp only [Memory.wf, Bool.and_eq_true, decide_eq_true_iff] at h
  exact ⟨h.1.1, h.1.2, h.2⟩

end Sys2Proof.Machine
end

