-- ==== Sys2Proof/Laws/Frame.lean ====
section
/-! SUPPORT. The status registers a commit leaves, operand checks as inequalities, and what the frame-level commands build
and accept (spec/43_frame_ops.md R152 to R157). -/

namespace Sys2Proof.Machine

/-! ### Status -/

theorem ErrKind.code_le (k : ErrKind) : k.code.toNat ≤ 9 := by cases k <;> decide

theorem statusLegal_succeed (s : State) : s.succeed.StatusLegal :=
  ⟨by rw [State.succeed_status]; decide, by simp, by simp, by simp⟩

theorem statusLegal_raise (s : State) (k : ErrKind) : (s.raise k).StatusLegal :=
  ⟨by rw [State.raise_status]; decide, ⟨fun _ => ErrKind.code_ne_zero k, fun _ => State.raise_errFlag s k⟩,
    fun _ => State.raise_doneFlag s k, ErrKind.code_le k⟩

/-! ### Operands -/

theorem lengthOperandOk_iff {v : Word64} : lengthOperandOk v = true ↔ v.toNat < 2 ^ 31 := by simp [lengthOperandOk]

theorem flagOperandOk_iff {v : Word64} : flagOperandOk v = true ↔ v.toNat < 2 := by simp [flagOperandOk]

theorem maxBlockOperandOk_iff {v : Word64} : maxBlockOperandOk v = true ↔ 1 ≤ v.toNat ∧ v.toNat < 2 ^ 31 := by
  simp [maxBlockOperandOk]

theorem zero_or_one {v : Word64} (h : v.toNat < 2) : v = 0 ∨ v = 1 := by
  rcases (by omega : v.toNat = 0 ∨ v.toNat = 1) with h | h
  · exact .inl (BitVec.eq_of_toNat_eq h)
  · exact .inr (BitVec.eq_of_toNat_eq h)

theorem flagOperand_eq {v : Word64} (h : v.toNat < 2) : flagOperand v = (v == 1) := by
  rcases zero_or_one h with rfl | rfl <;> decide

theorem flagOperand_boolResult (u : Bool) : flagOperand (boolResult u) = u := by cases u <;> decide

theorem boolResult_eq (u : Bool) : boolResult u = if u then 1 else 0 := by cases u <;> decide

/-! ### Encoding -/

theorem classMax_bounds (k : SizeClass) : 1 ≤ classMax k ∧ classMax k < 2 ^ 31 := by cases k <;> decide

/-- The length of the container (R89), under either policy. -/
theorem assembleFrame_length (p : Params) (x c : ByteSeq) :
    (assembleFrame p x c).container.length =
      (assembleFrame p x c).payload.length + 4 * (assembleFrame p x c).blocks + 23 := by
  simp only [assembleFrame, List.length_append, encodeHeader_length, contentChecksum, le32_length]
  rw [writeBlocks_length _ _ (classMax_bounds _).1]; omega

theorem choosePayload_stored {x c : ByteSeq} (h : x.length < c.length) : choosePayload x c = (x, true) := by
  rw [choosePayload, if_pos h]

theorem choosePayload_candidate {x c : ByteSeq} (h : ¬ x.length < c.length) : choosePayload x c = (c, false) := by
  rw [choosePayload, if_neg h]

/-! ### Decoding -/

/-- The check of a stored checksum on four bytes that are the content's hash (R143). -/
theorem checkContent_match (p : Params) (pre post x : ByteSeq) {o : Nat} (ho : pre.length = o) :
    checkContent p (pre ++ (le32 (p.hash32 x) ++ post)) o x = .ok (p.hash32 x) := by
  rw [checkContent_layout p pre _ post x rfl ho, if_pos (by simp)]

/-- One byte of a four-byte field changed changes the word. -/
theorem unle32_set_ne {f : ByteSeq} (h : f.length = 4) {i : Nat} {b : Byte} (hi : i < 4) (hne : f[i]? ≠ some b) :
    unle32 (f.set i b) ≠ unle32 f := by
  intro he
  have := unle32_injective (by simpa using h) h he
  apply hne
  rw [← this]; simp [h, hi]

/-- Where a frame that decodes keeps its parts (R155): the header, the records, the sentinel, the checksum, the rest. -/
theorem decodeFrame_layout {p : Params} {f : ByteSeq} {d : DecodedFrame} (h : decodeFrame p f = .ok d) :
    ∃ body post, f = body ++ (le32 (p.hash32 d.content) ++ post) ∧ body.length = d.run.newOffset ∧
      15 + 4 ≤ body.length ∧ decodeHeader p body = .ok d.header ∧ readBlocks body 15 = .ok d.run := by
  obtain ⟨hh, hr, -, hw, -⟩ := decodeFrame_ok h
  obtain ⟨-, hle, heq⟩ := checkContent_ok hw
  obtain ⟨recs, u, pre, post, hl, hpre, hc, hrun⟩ := readBlocks_ok hr
  have hnew : d.run.newOffset = 15 + (records recs).length + 4 := by rw [hrun]
  have hbody : (pre ++ (records recs ++ sentinel u)).length = d.run.newOffset := by
    rw [hnew]; simp [hpre]; omega
  have hf : f = (pre ++ (records recs ++ sentinel u)) ++ post := by rw [hc]; simp
  have hs : slice f d.run.newOffset 4 = le32 (p.hash32 d.content) := by
    rw [heq, le32_unle32 (slice_length hle)]
  have hpost : post = le32 (p.hash32 d.content) ++ post.drop 4 := by
    rw [hf, slice, ← hbody, List.drop_left] at hs
    rw [← hs, List.take_append_drop]
  refine ⟨pre ++ (records recs ++ sentinel u), post.drop 4, by rw [← hpost]; exact hf, hbody, by rw [hbody, hnew]; omega,
    ?_, ?_⟩
  · obtain ⟨hpost', hhb, hhc⟩ := decodeHeader_ok hh
    have h15 : pre = headerBytes p d.header.flg d.header.bd d.header.csize := by
      have e1 : f.take 15 = pre := by rw [hc, ← hpre, List.take_left]
      have e2 : f.take 15 = headerBytes p d.header.flg d.header.bd d.header.csize := by rw [hhb]; rfl
      rw [← e1, e2]
    rw [h15, decodeHeader_headerBytes, ← hhc]
  · have := readBlocks_records hl u pre [] hpre
    rw [List.append_nil] at this
    rw [this, hrun]

end Sys2Proof.Machine
end

