-- ==== Sys2Proof/Laws/PerInstr.lean ====
section
/-! SUPPORT. Statements about commands as syntax, one lemma per constructor. -/

namespace Sys2Proof.Laws.CommandCode

open Sys2Proof

/-- A command is well formed, its code is one R71 assigns, and decoding the code gives the command back. -/
def Statement (i : Instr) : Prop := i.wf = true ∧ wfCode (encode i) = true ∧ decode (encode i) = .ok i

theorem bscSel : Statement .bscSel := ⟨rfl, rfl, rfl⟩
theorem hdrEnc : Statement .hdrEnc := ⟨rfl, rfl, rfl⟩
theorem hdrDec : Statement .hdrDec := ⟨rfl, rfl, rfl⟩
theorem bsfEnc : Statement .bsfEnc := ⟨rfl, rfl, rfl⟩
theorem bsfDec : Statement .bsfDec := ⟨rfl, rfl, rfl⟩
theorem blkWrite : Statement .blkWrite := ⟨rfl, rfl, rfl⟩
theorem blkRead : Statement .blkRead := ⟨rfl, rfl, rfl⟩
theorem csumGen : Statement .csumGen := ⟨rfl, rfl, rfl⟩
theorem csumChk : Statement .csumChk := ⟨rfl, rfl, rfl⟩
theorem frameEnc : Statement .frameEnc := ⟨rfl, rfl, rfl⟩
theorem frameDec : Statement .frameDec := ⟨rfl, rfl, rfl⟩

end Sys2Proof.Laws.CommandCode
end

