-- ==== Sys2Proof/Laws/Step.lean ====
section
/-! SUPPORT. One lemma per host action: what the step that takes it does. -/

namespace Sys2Proof.Machine

theorem step_idle {s : State} (h : s.host = []) : step s = .next s := by
  simp [step, hostStep, h]

theorem step_cons {s : State} {a : HostAction} {rest : List HostAction} (h : s.host = a :: rest) :
    step s = hostAct a { s with host := rest } := by
  simp [step, hostStep, h]

theorem hostAct_command {code : Byte} {i : Instr} (h : decode code = .ok i) {v : Word64} (hv : commandByte v = code)
    (s : State) : hostAct (.write .cmd v) s = exec i { s with cmd := code } := by
  simp [hostAct, hostCommand, hv, h]

theorem hostAct_illegal {code : Byte} {e : Reject} (h : decode code = .error e) {v : Word64}
    (hv : commandByte v = code) (s : State) :
    hostAct (.write .cmd v) s = .next (State.raise { s with cmd := code } .illegalCommand) := by
  simp [hostAct, hostCommand, hv, h]

/-- A code below 0x0C and not 0 decodes; every other byte is rejected (R71, R72). -/
theorem decode_error_iff (code : Byte) :
    (∃ e, decode code = .error e) ↔ (code = 0 ∨ 0x0C ≤ code.toNat) := by
  constructor
  · rintro ⟨e, he⟩
    by_contra hc
    have h1 : code.toNat ≠ 0 := fun h => hc (.inl (BitVec.eq_of_toNat_eq h))
    have h2 : code.toNat < 0x0C := by omega
    unfold decode at he
    have : ∀ n : Nat, code.toNat = n → n ≠ 0 → n < 12 → False := by
      intro n hn h0 h12
      rw [hn] at he
      interval_cases n <;> first | exact absurd rfl h0 | cases he
    exact this _ rfl h1 h2
  · intro h
    refine ⟨.illegalCommand code, ?_⟩
    unfold decode
    rcases h with rfl | h
    · rfl
    · split <;> first | rfl | omega

/-- A host write to a register other than `CMD` (R22). -/
theorem hostAct_write {r : Reg} (h : r ≠ .cmd) (v : Word64) (s : State) :
    hostAct (.write r v) s = .next (s.hostWriteReg r v) := by
  cases r <;> first | rfl | exact absurd rfl h

end Sys2Proof.Machine
end

