-- ==== Sys2Proof/Tests/Slice0.lean ====
section
/-! SUPPORT. The model's own tests. Every expected value is taken from spec/95_test_vectors.md (its `H31` column), from
spec/opcode_table.json or from a rule; the vector's number stands with each test. The last part shows, for every statement
of Sys2Proof/Certificates/Slice0/Obligations.lean that has hypotheses, concrete values that meet them. -/

namespace Sys2Proof.Tests

open Sys2Proof Sys2Proof.Machine

/-! ## The toy collaborators of spec/95_test_vectors.md section 0 -/

/-- The toy hash `H31`. -/
def h31 (x : ByteSeq) : Word32 := x.foldl (fun h b => h * 31 + b.setWidth 32) 0

/-- One byte more in the runs found so far, the last run first. -/
def rleAdd (runs : List (Nat × Byte)) (b : Byte) : List (Nat × Byte) :=
  match runs with
  | [] => [(1, b)]
  | (n, c) :: rest => if c = b ∧ n < 255 then (n + 1, c) :: rest else (1, b) :: (n, c) :: rest

/-- `COMPRESS` of the toy codec `RLE`. -/
def rleCompress (x : ByteSeq) : ByteSeq :=
  (x.foldl rleAdd []).reverse.flatMap (fun r => [BitVec.ofNat 8 r.1, r.2])

/-- `DECOMPRESS` of the toy codec `RLE`. -/
def rleDecompress : ByteSeq → Option ByteSeq
  | [] => some []
  | [_] => none
  | n :: b :: rest => if n = 0 then none else (rleDecompress rest).map (fun y => List.replicate n.toNat b ++ y)

/-- The block with `H31` and `RLE`, everything else at the spec's defaults. -/
def rle : Params :=
  { params with hash32 := h31, compress := fun x => some (rleCompress x), decompress := fun x _ _ => rleDecompress x }

/-- The same with the codec `NOCOMP`. -/
def nocomp : Params := { rle with compress := fun x => some (x ++ [0x00]), decompress := fun _ _ _ => none }

/-- The same with the codec `FAILC`. -/
def failc : Params := { rle with compress := fun _ => none }

/-- The same with `SPLIT_POLICY = reference`. -/
def reference : Params := { rle with splitPolicy := .reference }

/-- The same with small buffers. -/
def small (cont payl fram : Nat) : Params := { rle with capCont := cont, capPayl := payl, capFram := fram }

/-! ## States -/

/-- The reset state with operands and buffers put in. -/
def start (arg0 arg1 off : Word64) (cont payl fram : ByteSeq) : State :=
  { State.reset with arg0 := arg0, arg1 := arg1, off := off, mem := { cont := cont, payl := payl, fram := fram } }

/-- The reset state with bytes in `FRAM` and a cursor. -/
def atFram (fram : ByteSeq) (off : Word64) : State := start 0 0 off [] [] fram

/-- The reset state with one host action pending. -/
def withAction (a : HostAction) : State := { State.reset with host := [a] }

/-- The header of V19 under `H31`. -/
def header19 : ByteSeq := [0x04, 0x22, 0x4D, 0x18, 0x6C, 0x40, 0x08, 0, 0, 0, 0, 0, 0, 0, 0xE0]

/-- The frame of V76 under `H31`. -/
def frame76 : ByteSeq :=
  [0x04, 0x22, 0x4D, 0x18, 0x6C, 0x40, 0, 0, 0, 0, 0, 0, 0, 0, 0x79] ++ [0, 0, 0, 0] ++ [0, 0, 0, 0]

/-- The frame of V78 under `H31`. -/
def frame78 : ByteSeq :=
  [0x04, 0x22, 0x4D, 0x18, 0x6C, 0x40, 0x02, 0, 0, 0, 0, 0, 0, 0, 0xD3] ++ [0x02, 0, 0, 0x80, 0x61, 0x62]
    ++ [0, 0, 0, 0] ++ [0x21, 0x0C, 0, 0]

/-- The frame of V80 under `H31`. -/
def frame80 : ByteSeq :=
  header19 ++ [0x02, 0, 0, 0, 0x08, 0x41] ++ [0, 0, 0, 0] ++ [0x80, 0xF0, 0x3E, 0x41]

/-- The ten bytes `10 .. 19` of V51. -/
def ten : ByteSeq := [0x10, 0x11, 0x12, 0x13, 0x14, 0x15, 0x16, 0x17, 0x18, 0x19]

/-- Eight bytes `41`. -/
def eightA : ByteSeq := List.replicate 8 0x41

/-! ## Well-formedness -/

theorem test_wfCode_refuses : wfCode 0x00 = false ∧ wfCode 0x0C = false ∧ wfCode 0xFF = false := by decide

theorem test_wfCode_accepts : wfCode 0x01 = true ∧ wfCode 0x0B = true := by decide

theorem test_wf_load_over_capacity :
    (HostAction.load .fram [0, 0, 0, 0]).wf (small 1 1 3) = false ∧
      (HostAction.load .fram [0, 0, 0]).wf (small 1 1 3) = true := by decide

theorem test_wf_command_value : (HostAction.write .cmd 0x100).wf rle = false ∧ (HostAction.write .arg0 0x100).wf rle = true := by
  decide

theorem test_wf_params_refuses :
    (small 0 1 1).wf = false ∧ (small 1 (2 ^ 64) 1).wf = false ∧ Params.wf { rle with flgIndepBit := 8 } = false ∧
      Params.wf { rle with flgBase := 0x6C } = false := by decide

theorem test_wf_params_accepts : params.wf = true ∧ (small 1 1 1).wf = true ∧ rle.wf = true := by
  refine ⟨by rfl, by decide, by decide⟩

/-! ## Decoding: the words of spec/opcode_table.json, bit by bit -/

theorem test_decode_header_codec :
    decode 0b00000001 = .ok .bscSel ∧ decode 0b00000010 = .ok .hdrEnc ∧ decode 0b00000011 = .ok .hdrDec := by decide

theorem test_decode_block_codec :
    decode 0b00000100 = .ok .bsfEnc ∧ decode 0b00000101 = .ok .bsfDec ∧ decode 0b00000110 = .ok .blkWrite ∧
      decode 0b00000111 = .ok .blkRead := by decide

theorem test_decode_checksum : decode 0b00001000 = .ok .csumGen ∧ decode 0b00001001 = .ok .csumChk := by decide

theorem test_decode_frame_ops : decode 0b00001010 = .ok .frameEnc ∧ decode 0b00001011 = .ok .frameDec := by decide

/-- V96, V97. -/
theorem test_decode_refuses :
    decode 0x00 = .error (.illegalCommand 0x00) ∧ decode 0x0C = .error (.illegalCommand 0x0C) ∧
      decode 0xFF = .error (.illegalCommand 0xFF) := by decide

theorem test_table_word : decodeTableWord 8 0x0B = some .frameDec ∧ decodeTableWord 8 0x0C = none := by decide

/-- R22: the register numbers. -/
theorem test_register_numbers :
    [Reg.cmd, .status, .err, .arg0, .arg1, .res0, .res1, .off, .clen, .plen, .flen, .hdrFlg, .hdrBd, .hdrCsize, .hdrHc].map
      Reg.number = [0x00, 0x01, 0x02, 0x03, 0x04, 0x05, 0x06, 0x07, 0x08, 0x09, 0x0A, 0x0B, 0x0C, 0x0D, 0x0E] := by decide

/-! ## The step -/

/-- The step answers a next state. -/
def answersNext (o : Host.Outcome State Fault Refusal) : Bool :=
  match o with
  | .next _ => true
  | .fault _ | .refused _ => false

/-- Every command, placed right after reset, is answered with a next state. -/
theorem test_fetch_all :
    ∀ w ∈ [0x01, 0x02, 0x03, 0x04, 0x05, 0x06, 0x07, 0x08, 0x09, 0x0A, 0x0B],
      answersNext (step (State.reset.withFetchWord 8 w)) = true := by decide

/-- The machine runs a placed command as the first thing after reset: V99, `BLK_WRITE` alone is `BadOperand`. -/
theorem test_fetch_blkWrite :
    step (State.reset.withFetchWord 8 0x06) =
      .next { State.reset with cmd := 0x06, status := 0x03, err := 0x07 } := rfl

/-- V99: `HDR_DEC` alone is `TruncatedInput`. -/
theorem test_fetch_hdrDec :
    step (State.reset.withFetchWord 8 0x03) =
      .next { State.reset with cmd := 0x03, status := 0x03, err := 0x05 } := rfl

/-- V97: the code is kept in `CMD`. -/
theorem test_illegal :
    step (withAction (.write .cmd 0xFF)) = .next { State.reset with cmd := 0xFF, status := 0x03, err := 0x08 } := rfl

/-- P1 line 6: `MOV RES1 -> ARG0` reads, then writes what it read. -/
theorem test_mov :
    step { State.reset with res1 := 64000, host := [.mov .res1 .arg0] } =
      .next { State.reset with res1 := 64000, host := [.write .arg0 64000], bus := some (.word 64000) } := rfl

/-- R22: a write to a register the host may only read is ignored. -/
theorem test_write_ignored : step (withAction (.write .res0 7)) = .next State.reset := rfl

/-! ## Header codec -/

/-- V2, V3. -/
theorem test_bscSel_threshold :
    (commandWith rle .bscSel (start 63999 0 0 [] [] [])).res1 = 64000 ∧
      (commandWith rle .bscSel (start 64000 0 0 [] [] [])).res1 = 256000 := by decide

/-- V8. -/
theorem test_bscSel_unsigned :
    (commandWith rle .bscSel (start (BitVec.allOnes 64) 0 0 [] [] [])).res0 = 7 := by decide

/-- V14, V15: the independence bit by the inequality. -/
theorem test_hdrEnc_indep :
    (commandWith rle .hdrEnc (start 5000000 4000000 0 [] [] [])).mem.fram =
        [0x04, 0x22, 0x4D, 0x18, 0x4C, 0x70, 0x40, 0x4B, 0x4C, 0, 0, 0, 0, 0, 0x08] ∧
      (commandWith rle .hdrEnc (start 5000000 3999999 0 [] [] [])).mem.fram =
        [0x04, 0x22, 0x4D, 0x18, 0x6C, 0x70, 0x40, 0x4B, 0x4C, 0, 0, 0, 0, 0, 0x2C] := by decide

/-- V16: the content size at full width. -/
theorem test_hdrEnc_wide :
    (commandWith rle .hdrEnc (start 0x123456789 1000000 0 [] [] [])).mem.fram =
      [0x04, 0x22, 0x4D, 0x18, 0x6C, 0x70, 0x89, 0x67, 0x45, 0x23, 0x01, 0, 0, 0, 0x31] := by decide

/-- V19, and V21: no bit of the flags byte is examined. -/
theorem test_hdrDec :
    commandWith rle .hdrDec (atFram header19 0) =
        { atFram header19 15 with hdrFlg := 0x6C, hdrBd := 0x40, hdrCsize := 8, hdrHc := 0xE0, status := 0x01 } ∧
      (commandWith rle .hdrDec (atFram [0x04, 0x22, 0x4D, 0x18, 0x7D, 0x40, 8, 0, 0, 0, 0, 0, 0, 0, 0x63] 0)).hdrFlg
        = 0x7D := by decide

/-- V23, V24, V25, V27: the order of the checks. -/
theorem test_hdrDec_errors :
    (commandWith rle .hdrDec (atFram [0x04, 0x22, 0x4D, 0x19] 0)).err = 0x01 ∧
      (commandWith rle .hdrDec (atFram (header19.take 14) 0)).err = 0x05 ∧
      (commandWith rle .hdrDec (atFram (header19.set 0 0x05 |>.set 14 0) 0)).err = 0x01 ∧
      (commandWith rle .hdrDec (atFram (header19.set 4 0x6D) 0)).err = 0x02 := by decide

/-! ## Block codec -/

/-- V32, V34. -/
theorem test_bsfEnc :
    (commandWith rle .bsfEnc (start 2 1 0 [] [] [])).mem.fram = [0x02, 0x00, 0x00, 0x80] ∧
      (commandWith rle .bsfEnc (start (2 ^ 31 - 1) 1 0 [] [] [])).res0 = 0xFFFFFFFF := by decide

/-- V35, V36. -/
theorem test_bsfEnc_bad :
    (commandWith rle .bsfEnc (start (2 ^ 31) 0 0 [] [] [])).err = 0x07 ∧
      (commandWith rle .bsfEnc (start 1 2 0 [] [] [])).err = 0x07 := by decide

/-- V39: `OFF = 2` reads the bytes `00 80 61 62`. -/
theorem test_bsfDec :
    (commandWith rle .bsfDec (atFram [0x02, 0x00, 0x00, 0x80, 0x61, 0x62] 2)).res0 = 0x62618000 ∧
      (commandWith rle .bsfDec (atFram [0x02, 0x00, 0x00, 0x80, 0x61, 0x62] 0)).res1 = 1 := by decide

/-- V39, V40. -/
theorem test_bsfDec_truncated :
    (commandWith rle .bsfDec (atFram [0x02, 0x00, 0x00, 0x80, 0x61, 0x62] 3)).err = 0x05 ∧
      (commandWith rle .bsfDec (atFram [0x02, 0x00, 0x00, 0x80, 0x61, 0x62] (BitVec.allOnes 64))).err = 0x05 := by
  decide

/-- V48, V49, V46. -/
theorem test_split :
    split .ceil 8 4 = [(0, 4), (4, 4)] ∧ split .reference 8 4 = [(0, 4), (4, 4), (8, 0)] ∧
      split .ceil 10 4 = [(0, 4), (4, 4), (8, 2)] ∧ split .reference 0 4 = [] := by decide

/-- V51. -/
theorem test_blkWrite :
    commandWith rle .blkWrite (start 4 1 0 [] ten []) =
      { start 4 1 0 [] ten
          ([0x04, 0, 0, 0x80, 0x10, 0x11, 0x12, 0x13] ++ [0x04, 0, 0, 0x80, 0x14, 0x15, 0x16, 0x17] ++
            [0x02, 0, 0, 0x80, 0x18, 0x19] ++ [0, 0, 0, 0])
          with res0 := 3, status := 0x01 } := by decide

/-- V41 under both policies. -/
theorem test_blkWrite_exact_multiple :
    (commandWith reference .blkWrite (start 5 1 0 [] ten [])).mem.fram =
        [0x05, 0, 0, 0x80, 0x10, 0x11, 0x12, 0x13, 0x14] ++ [0x05, 0, 0, 0x80, 0x15, 0x16, 0x17, 0x18, 0x19] ++
          [0, 0, 0, 0x80] ++ [0, 0, 0, 0] ∧
      (commandWith rle .blkWrite (start 5 1 0 [] ten [])).flen = 22 := by decide

/-- V62, V63. -/
theorem test_blkRead :
    commandWith rle .blkRead (atFram ([0x01, 0, 0, 0x80, 0xAA] ++ [0x01, 0, 0, 0, 0xBB] ++ [0, 0, 0, 0]) 0) =
        { start 0 0 14 [] [0xAA, 0xBB] ([0x01, 0, 0, 0x80, 0xAA] ++ [0x01, 0, 0, 0, 0xBB] ++ [0, 0, 0, 0])
            with res0 := 2, res1 := 0, status := 0x01 } ∧
      (commandWith rle .blkRead
        (atFram ([0xFF, 0xFF] ++ [0x01, 0, 0, 0x80, 0xAA] ++ [0, 0, 0, 0] ++ [0xEE]) 2)).off = 11 := by decide

/-- V61, V64, V65. -/
theorem test_blkRead_ends :
    (commandWith rle .blkRead (atFram [0, 0, 0, 0x80] 0)).res1 = 1 ∧
      (commandWith rle .blkRead (atFram [0x02, 0, 0, 0x80, 0x61] 0)).err = 0x05 ∧
      (commandWith rle .blkRead (atFram [0x01, 0, 0, 0x80, 0x61, 0, 0, 0] 0)).err = 0x05 := by decide

/-! ## Checksum -/

/-- V68. -/
theorem test_csumGen :
    commandWith rle .csumGen (start 0 0 9 [0x61, 0x62] [] []) =
      { start 0 0 9 [0x61, 0x62] [] [0x21, 0x0C, 0x00, 0x00] with res0 := 0x0C21, status := 0x01 } := by decide

/-- V74, V72, V75. -/
theorem test_csumChk :
    commandWith rle .csumChk (start 0 0 25 [0x61, 0x62] [] frame78) =
        { start 0 0 25 [0x61, 0x62] [] frame78 with res0 := 0x0C21, status := 0x01 } ∧
      (commandWith rle .csumChk (start 0 0 0 [0x61, 0x62] [] [0x21, 0x0C, 0x00, 0x01])).err = 0x03 ∧
      (commandWith rle .csumChk (start 0 0 26 [0x61, 0x62] [] frame78)).err = 0x05 := by decide

/-! ## Frame-level commands -/

/-- V78, V80. -/
theorem test_frameEnc :
    commandWith rle .frameEnc (start 0 0 0 [0x61, 0x62] [] []) =
        { start 0 0 0 [0x61, 0x62] [0x61, 0x62] frame78 with res0 := 1, res1 := 1, status := 0x01 } ∧
      commandWith rle .frameEnc (start 0 0 0 eightA [] []) =
        { start 0 0 0 eightA [0x08, 0x41] frame80 with res0 := 1, res1 := 0, status := 0x01 } := by decide

/-- V79: equal length keeps the compressed form; `FAILC` is `CompressionFailed`. -/
theorem test_frameEnc_edges :
    (commandWith rle .frameEnc (start 0 0 0 [0x41, 0x41] [] [])).res1 = 0 ∧
      commandWith failc .frameEnc (start 0 0 0 [0x61] [] []) =
        { start 0 0 0 [0x61] [] [] with status := 0x03, err := 0x06 } := by decide

/-- V84 on V80's frame with V94's trailing bytes. -/
theorem test_frameDec :
    commandWith rle .frameDec (atFram (frame80 ++ [0xDE, 0xAD]) 0) =
      { start 0 0 29 eightA [0x08, 0x41] (frame80 ++ [0xDE, 0xAD]) with
          res0 := 1, res1 := 0, hdrFlg := 0x6C, hdrBd := 0x40, hdrCsize := 8, hdrHc := 0xE0, status := 0x01 } := by
  decide

/-- V85, V90, V92, V93, V86: the error kinds of a damaged frame. -/
theorem test_frameDec_errors :
    (commandWith rle .frameDec (atFram (frame78.set 0 0x05) 0)).err = 0x01 ∧
      (commandWith rle .frameDec (atFram (frame78.set 28 0x48) 0)).err = 0x03 ∧
      (commandWith rle .frameDec (atFram (frame78.set 18 0x00) 0)).err = 0x04 ∧
      (commandWith rle .frameDec (atFram (frame78.set 15 0x03) 0)).err = 0x05 ∧
      (commandWith rle .frameDec (atFram (frame80.take 27) 0)).err = 0x05 := by decide

/-! ## Witnesses: values that meet the hypotheses of each statement -/

theorem witness_ResetClearsRegistersAndBuffers : (withAction .reset).host = .reset :: [] := rfl

theorem witness_StepKeepsInvariant :
    (withAction (.write .cmd 0x01)).Inv params ∧ ∃ t, step (withAction (.write .cmd 0x01)) = .next t := by
  refine ⟨⟨⟨by decide, by decide, by decide, by decide⟩, Memory.reset_wf params, .inl ⟨rfl, rfl, rfl, rfl⟩, ?_⟩, _, rfl⟩
  intro _; exact ⟨rfl, rfl, rfl, rfl, rfl, rfl, rfl, rfl⟩

theorem witness_CommandEncodingRoundTrip : Instr.frameDec.wf = true ∧ decode 0x0B = .ok .frameDec := by decide

theorem witness_UnassignedCodesAreIllegal :
    (withAction (.write .cmd 0x00)).host = .write .cmd ((0x00 : Byte).setWidth 64) :: [] ∧
      ((0x00 : Byte) = 0x00 ∨ 0x0C ≤ (0x00 : Byte).toNat) ∧
      (withAction (.write .cmd 0x0C)).host = .write .cmd ((0x0C : Byte).setWidth 64) :: [] ∧
      ((0x0C : Byte) = 0x00 ∨ 0x0C ≤ (0x0C : Byte).toNat) ∧
      (withAction (.write .cmd 0xFF)).host = .write .cmd ((0xFF : Byte).setWidth 64) :: [] ∧
      ((0xFF : Byte) = 0x00 ∨ 0x0C ≤ (0xFF : Byte).toNat) := by decide

theorem witness_StepRunsDecodedCommand :
    (withAction (.write .cmd 0x01)).host = .write .cmd ((0x01 : Byte).setWidth 64) :: [] ∧
      decode 0x01 = .ok .bscSel ∧
      (withAction (.write .cmd 0x0B)).host = .write .cmd ((0x0B : Byte).setWidth 64) :: [] ∧
      decode 0x0B = .ok .frameDec := by decide

theorem witness_HostWritesOnlyWritableRegisters :
    (withAction (.write .arg0 5)).host = .write .arg0 5 :: [] ∧ Reg.arg0 ≠ .cmd ∧
      (withAction (.write .arg1 5)).host = .write .arg1 5 :: [] ∧ Reg.arg1 ≠ .cmd ∧
      (withAction (.write .off 5)).host = .write .off 5 :: [] ∧ Reg.off ≠ .cmd ∧
      (withAction (.write .status 5)).host = .write .status 5 :: [] ∧ Reg.status ≠ .cmd := by decide

theorem witness_HostChangesBuffersOnlyByLoading :
    ((withAction (.load .fram [0xAA])).host = .load .fram [0xAA] :: [] ∧
      ([0xAA] : ByteSeq).length ≤ params.cap .fram) ∧
    ((withAction (.load .cont (List.replicate (2 ^ 64) 0))).host = .load .cont (List.replicate (2 ^ 64) 0) :: [] ∧
      params.cap .cont < (List.replicate (2 ^ 64) (0 : Byte)).length) ∧
    ((withAction (.get .cmd)).host = .get .cmd :: [] ∧ (∀ v, HostAction.get .cmd ≠ .write .cmd v) ∧
      (∀ b bytes, HostAction.get .cmd ≠ .load b bytes) ∧ HostAction.get .cmd ≠ .reset) := by
  refine ⟨⟨rfl, by decide⟩, ⟨rfl, ?_⟩, ⟨rfl, by simp, by simp, by simp⟩⟩
  rw [List.length_replicate]; decide

theorem witness_HostReadsHaveNoSideEffect :
    (withAction (.get .flen)).host = .get .flen :: [] ∧ (withAction (.read .payl)).host = .read .payl :: [] ∧
      (withAction (.mov .res1 .arg0)).host = .mov .res1 .arg0 :: [] ∧ State.reset.host = [] := by decide

/-- One case for every error code that a command can leave, for every command that has any. -/
theorem witness_CommandsRaiseOnlyTheirErrorKinds :
    (commandWith (small 9 9 14) .hdrEnc State.reset).err = 0x09 ∧
    (commandWith rle .hdrDec (atFram [0x04, 0x22, 0x4D, 0x19] 0)).err = 0x01 ∧
    (commandWith rle .hdrDec (atFram (header19.set 14 0) 0)).err = 0x02 ∧
    (commandWith rle .hdrDec State.reset).err = 0x05 ∧
    (commandWith rle .bsfEnc (start 0 2 0 [] [] [])).err = 0x07 ∧
    (commandWith (small 9 9 3) .bsfEnc State.reset).err = 0x09 ∧
    (commandWith rle .bsfDec State.reset).err = 0x05 ∧
    (commandWith rle .blkWrite State.reset).err = 0x07 ∧
    (commandWith (small 9 9 3) .blkWrite (start 1 0 0 [] [] [])).err = 0x09 ∧
    (commandWith rle .blkRead State.reset).err = 0x05 ∧
    (commandWith (small 9 1 99) .blkRead (atFram frame78 15)).err = 0x09 ∧
    (commandWith (small 9 9 3) .csumGen State.reset).err = 0x09 ∧
    (commandWith rle .csumChk (atFram [1, 0, 0, 0] 0)).err = 0x03 ∧
    (commandWith rle .csumChk State.reset).err = 0x05 ∧
    (commandWith failc .frameEnc State.reset).err = 0x06 ∧
    (commandWith (small 9 9 22) .frameEnc State.reset).err = 0x09 ∧
    (commandWith rle .frameDec (atFram (frame78.set 0 0) 0)).err = 0x01 ∧
    (commandWith rle .frameDec (atFram (frame78.set 14 0) 0)).err = 0x02 ∧
    (commandWith rle .frameDec (atFram (frame78.set 28 0x48) 0)).err = 0x03 ∧
    (commandWith rle .frameDec (atFram (frame78.set 18 0) 0)).err = 0x04 ∧
    (commandWith rle .frameDec State.reset).err = 0x05 ∧
    (commandWith (small 1 9 99) .frameDec (atFram frame78 0)).err = 0x09 ∧
    (commandWith rle .frameDec State.reset).errFlag = true := by decide

theorem witness_CommandsWriteOnlyTheirRegisters :
    Reg.off ∉ ([.status, .err, .res0, .res1, .plen, .flen] : List Reg) ∧
      Reg.res0 ∉ ([.status, .err, .off, .hdrFlg, .hdrBd, .hdrCsize, .hdrHc] : List Reg) ∧
      Reg.cmd ∉ ([.status, .err, .res0, .res1, .off, .clen, .plen, .hdrFlg, .hdrBd, .hdrCsize, .hdrHc] : List Reg) := by
  decide

theorem witness_CommandsWriteOnlyTheirBuffers :
    BufName.cont ∉ ([.payl, .fram] : List BufName) ∧ BufName.fram ∉ ([.payl, .cont] : List BufName) ∧
      BufName.payl ∉ ([.fram] : List BufName) ∧ BufName.fram ∉ ([.payl] : List BufName) ∧
      BufName.fram ∉ ([] : List BufName) := by decide

/-- A state on which every command succeeds (V76's frame, the cursor at its first size field). -/
def allSucceed : State := start 1 0 15 [] [] frame76

/-- Another with the same operands and buffers and other values in every other register. -/
def allSucceed' : State :=
  { allSucceed with cmd := 9, status := 3, err := 5, res0 := 7, res1 := 8, hdrFlg := 1, hdrBd := 2, hdrCsize := 3, hdrHc := 4 }

theorem witness_ResultsDependOnlyOnOperands :
    allSucceed.arg0 = allSucceed'.arg0 ∧ allSucceed.arg1 = allSucceed'.arg1 ∧ allSucceed.off = allSucceed'.off ∧
      allSucceed.mem = allSucceed'.mem ∧
      ∀ i ∈ [Instr.bscSel, .hdrEnc, .hdrDec, .bsfEnc, .bsfDec, .blkWrite, .blkRead, .csumGen, .csumChk, .frameEnc, .frameDec],
        (commandWith rle i allSucceed).errFlag = false := by decide

/-- The kind a command raises, if it raises one. -/
def kindOf (p : Params) (i : Instr) (s : State) : Option ErrKind :=
  match runCommand p i s with
  | .ok _ => none
  | .error k => some k

theorem runCommand_of_kindOf {p : Params} {i : Instr} {s : State} {k : ErrKind} (h : kindOf p i s = some k) :
    runCommand p i s = .error k := by
  unfold kindOf at h
  cases hr : runCommand p i s with
  | ok t => rw [hr] at h; cases h
  | error k' => rw [hr] at h; cases h; rfl

theorem witness_CapacityIsCheckedLast :
    (runCommand rle .hdrDec State.reset = .error .truncatedInput ∧ ErrKind.truncatedInput ≠ .capacityExceeded) ∧
      runCommand (small 9 9 22) .frameEnc State.reset = .error .capacityExceeded :=
  ⟨⟨runCommand_of_kindOf (by decide), by decide⟩, runCommand_of_kindOf (by decide)⟩

theorem witness_CursorStaysWithinFram :
    rle.wf = true ∧ allSucceed.mem.wf rle = true ∧
      ∀ i ∈ [Instr.hdrDec, .blkRead, .frameDec], (commandWith rle i allSucceed).errFlag = false := by decide

theorem witness_HdrEncWritesHeader : (small 9 9 14).capFram < 15 := by decide

/-- A byte and the byte with its lowest bit flipped differ. -/
theorem flipped_ne (b : Byte) : b ≠ b ^^^ 1 := by
  intro h
  have h0 := congrArg (fun x : Byte => x.getLsbD 0) h
  simp only [BitVec.getLsbD_xor] at h0
  revert h0
  cases b.getLsbD 0 <;> decide

/-- The header bytes of size 8, with a checksum byte given. -/
def headerWith (hc : Byte) (post : ByteSeq) : ByteSeq :=
  [0x04, 0x22, 0x4D, 0x18] ++ ((0x6C : Byte) :: 0x40 :: le64 8) ++ hc :: post

theorem witness_HdrDecDecodesOrReportsFirstError :
    (∃ hc, (atFram (headerWith hc [0xEE]) 0).mem.fram =
        [0x04, 0x22, 0x4D, 0x18] ++ ((0x6C : Byte) :: 0x40 :: le64 8) ++ hc :: [0xEE] ∧
      (Config.hash32 ((0x6C : Byte) :: 0x40 :: le64 8)).extractLsb' 8 8 = hc) ∧
    (∃ hc, (atFram (headerWith hc []) 0).mem.fram =
        [0x04, 0x22, 0x4D, 0x18] ++ ((0x6C : Byte) :: 0x40 :: le64 8) ++ hc :: [] ∧
      (Config.hash32 ((0x6C : Byte) :: 0x40 :: le64 8)).extractLsb' 8 8 ≠ hc) ∧
    (atFram [0x04, 0x22, 0x4D] 0).mem.fram.length < 4 ∧
    (4 ≤ (atFram [0x04, 0x22, 0x4D, 0x19] 0).mem.fram.length ∧
      (atFram [0x04, 0x22, 0x4D, 0x19] 0).mem.fram.take 4 ≠ [0x04, 0x22, 0x4D, 0x18]) ∧
    ((atFram (header19.take 4) 0).mem.fram.take 4 = [0x04, 0x22, 0x4D, 0x18] ∧
      (atFram (header19.take 4) 0).mem.fram.length < 15) ∧
    ((atFram (header19.take 14) 0).mem.fram.take 4 = [0x04, 0x22, 0x4D, 0x18] ∧
      (atFram (header19.take 14) 0).mem.fram.length < 15) := by
  refine ⟨⟨_, rfl, rfl⟩, ⟨_, rfl, flipped_ne _⟩, by decide, by decide, by decide, by decide⟩

theorem witness_HeaderDecodesToWhatWasEncoded : 15 ≤ (small 9 9 15).capFram := by decide

/-- A byte of each part of the header changed: V24, V27, V28's place, V29, V26. -/
theorem witness_HeaderTamperIsDetected :
    (commandWith rle .hdrDec (atFram header19 0)).errFlag = false ∧
      (atFram header19 0).mem.byte .fram 0 ≠ some 0x05 ∧ (atFram header19 0).mem.byte .fram 3 ≠ some 0x19 ∧
      (atFram header19 0).mem.byte .fram 4 ≠ some 0x6D ∧ (atFram header19 0).mem.byte .fram 12 ≠ some 0x01 ∧
      (atFram header19 0).mem.byte .fram 13 ≠ some 0x01 ∧ (atFram header19 0).mem.byte .fram 14 ≠ some 0x39 := by decide

/-- V27 and V29: the two sides of the equivalence both occur. -/
theorem test_header_tamper_both_ways :
    (commandWith rle .hdrDec (atFram (header19.set 4 0x6D) 0)).err = 0x02 ∧
      (commandWith rle .hdrDec (atFram (header19.set 12 0x01) 0)).err = 0x00 := by decide

theorem witness_LittleEndianFieldsRoundTrip :
    3 < 4 ∧ 7 < 8 ∧ ([1, 2, 3, 4] : ByteSeq).length = 4 ∧ ten.tail.tail.length = 8 := by decide

theorem witness_BsfEncEncodesSizeField :
    ((start (2 ^ 31 - 1) 1 0 [] [] []).arg0.toNat < 2 ^ 31 ∧ (start (2 ^ 31 - 1) 1 0 [] [] []).arg1.toNat < 2) ∧
      (2 ^ 31 ≤ (start (2 ^ 31) 0 0 [] [] []).arg0.toNat ∨ 2 ≤ (start (2 ^ 31) 0 0 [] [] []).arg1.toNat) ∧
      (2 ^ 31 ≤ (start 1 2 0 [] [] []).arg0.toNat ∨ 2 ≤ (start 1 2 0 [] [] []).arg1.toNat) ∧
      (State.reset.arg0.toNat < 2 ^ 31 ∧ State.reset.arg1.toNat < 2 ∧ (small 9 9 3).capFram < 4) := by decide

theorem witness_BsfDecDecodesSizeField :
    ((atFram [2, 0, 0, 0x80, 0x61, 0x62] 2).mem.fram = [2, 0] ++ [0, 0x80, 0x61, 0x62] ++ [] ∧
      (atFram [2, 0, 0, 0x80, 0x61, 0x62] 2).off.toNat = ([2, 0] : ByteSeq).length) ∧
    (atFram [2, 0, 0, 0x80, 0x61, 0x62] 3).mem.fram.length < (atFram [2, 0, 0, 0x80, 0x61, 0x62] 3).off.toNat + 4 ∧
    (atFram [] (BitVec.allOnes 64)).mem.fram.length < (atFram [] (BitVec.allOnes 64)).off.toNat + 4 := by decide

theorem witness_SizeFieldRoundTrip : 2 ^ 31 - 1 < 2 ^ 31 ∧ ([0xFF, 0xFF, 0xFF, 0xFF] : ByteSeq).length = 4 := by decide

theorem witness_SplitListsTheRanges :
    1 ≤ 4 ∧ (split .ceil 10 4)[2]? = some (8, 2) ∧ (split .reference 8 4)[2]? = some (8, 0) := by decide

theorem witness_SplitCoversThePayload :
    1 ≤ 4 ∧ (8, 2) ∈ split .ceil ten.length 4 ∧ 1 ≤ 1 ∧ (9, 1) ∈ split .ceil ten.length 1 := by decide

theorem witness_WriteBlocksLaysOutRecords : 1 ≤ 1 ∧ ten ≠ [] ∧ 1 < ten.length ∧ ten.length = 10 := by decide

theorem witness_BlkWriteWritesRecords :
    (1 ≤ (start 1 1 0 [] ten []).arg0.toNat ∧ (start 1 1 0 [] ten []).arg0.toNat < 2 ^ 31 ∧
      (start 1 1 0 [] ten []).arg1.toNat < 2 ∧
      (start 1 1 0 [] ten []).mem.payl.length + 4 * ((ten.length + 1 - 1) / 1) + 4 < 2 ^ 64) ∧
    (1 ≤ (start (2 ^ 31 - 1) 0 0 [] ten []).arg0.toNat ∧ (start (2 ^ 31 - 1) 0 0 [] ten []).arg0.toNat < 2 ^ 31 ∧
      (start (2 ^ 31 - 1) 0 0 [] ten []).arg1.toNat < 2) ∧
    (start 0 1 0 [] ten []).arg0.toNat = 0 ∧ 2 ^ 31 ≤ (start (2 ^ 31) 1 0 [] ten []).arg0.toNat ∧
    2 ≤ (start 4 2 0 [] ten []).arg1.toNat ∧
    (writeBlocks (small 9 99 26).splitPolicy (start 4 1 0 [] ten []).mem.payl 4 true).length ≤ (small 9 99 26).capFram ∧
    (writeBlocks reference.splitPolicy (start 5 1 0 [] ten []).mem.payl 5 true).length ≤ reference.capFram ∧
    (small 9 99 25).capFram < (writeBlocks (small 9 99 25).splitPolicy (start 4 1 0 [] ten []).mem.payl 4 true).length := by
  decide

/-- A run of two records with different flags, a payload of one byte each. -/
def twoRecords : List (ByteSeq × Bool) := [([0xAA], true), ([0xBB], false)]

theorem twoRecords_legal : RecordsLegal twoRecords := by
  intro r hr
  simp only [twoRecords, List.mem_cons, List.not_mem_nil, or_false] at hr
  rcases hr with rfl | rfl <;> decide

theorem nil_legal : RecordsLegal [] := by intro r hr; cases hr

/-- V62 from an offset, the empty run with either sentinel, no run at all, and a run that does not fit. -/
theorem witness_BlkReadReadsRunOfRecords :
    (RecordsLegal twoRecords ∧
      (atFram ([0xFF] ++ records twoRecords ++ sentinel false ++ [0xEE]) 1).mem.fram =
        [0xFF] ++ records twoRecords ++ sentinel false ++ [0xEE] ∧
      (atFram ([0xFF] ++ records twoRecords ++ sentinel false ++ [0xEE]) 1).off.toNat = ([0xFF] : ByteSeq).length ∧
      (atFram ([0xFF] ++ records twoRecords ++ sentinel false ++ [0xEE]) 1).mem.wf params = true) ∧
    (RecordsLegal [] ∧ (atFram (sentinel true) 0).mem.fram = [] ++ records [] ++ sentinel true ++ [] ∧
      (atFram (sentinel true) 0).off.toNat = ([] : ByteSeq).length ∧ (atFram (sentinel true) 0).mem.wf params = true) ∧
    (¬ ∃ (pre post : ByteSeq) (recs : List (ByteSeq × Bool)) (u : Bool), RecordsLegal recs ∧
      (atFram [0, 0, 0] 0).mem.fram = pre ++ records recs ++ sentinel u ++ post ∧
      (atFram [0, 0, 0] 0).off.toNat = pre.length) ∧
    (small 9 1 99).capPayl < (payloadOf twoRecords).length := by
  refine ⟨⟨twoRecords_legal, rfl, rfl, by decide⟩, ⟨nil_legal, rfl, rfl, by decide⟩, ?_, by decide⟩
  rintro ⟨pre, post, recs, u, -, h, -⟩
  have hl := congrArg List.length h
  simp only [List.length_append, sentinel_length, atFram, start, List.length_cons, List.length_nil] at hl
  omega

theorem witness_ReaderNeedsNoMoreTurns : ([] : ByteSeq).length / 5 + 1 ≤ 1 := by decide

theorem witness_ReadBlocksInvertsWriteBlocks :
    1 ≤ 1 ∧ 1 < 2 ^ 31 ∧ 1 ≤ 2 ^ 31 - 1 ∧ 2 ^ 31 - 1 < 2 ^ 31 := by decide

theorem witness_CsumGenWritesContentHash : (small 9 9 3).capFram < 4 := by decide

theorem hash_bytes (w : Word32) :
    w = w.extractLsb' 24 8 ++ w.extractLsb' 16 8 ++ w.extractLsb' 8 8 ++ w.extractLsb' 0 8 := by
  rw [← unle32_four]; exact (unle32_le32 w).symm

theorem hash_bytes_flipped (w : Word32) :
    w ≠ w.extractLsb' 24 8 ++ w.extractLsb' 16 8 ++ w.extractLsb' 8 8 ++ (w.extractLsb' 0 8 ^^^ 1) := by
  rw [← unle32_four]
  intro h
  have h' := congrArg le32 h
  rw [le32_unle32 rfl] at h'
  exact flipped_ne _ (List.cons.inj h').1

theorem witness_CsumChkComparesStoredHash :
    (∃ b0 b1 b2 b3, (atFram ([0xEE] ++ [b0, b1, b2, b3] ++ []) 1).off.toNat = ([0xEE] : ByteSeq).length ∧
      Config.hash32 (atFram ([0xEE] ++ [b0, b1, b2, b3] ++ []) 1).mem.cont = b3 ++ b2 ++ b1 ++ b0) ∧
    (∃ b0 b1 b2 b3, (atFram ([0xEE] ++ [b0, b1, b2, b3] ++ []) 1).off.toNat = ([0xEE] : ByteSeq).length ∧
      Config.hash32 (atFram ([0xEE] ++ [b0, b1, b2, b3] ++ []) 1).mem.cont ≠ b3 ++ b2 ++ b1 ++ b0) ∧
    (atFram [1, 2, 3, 4] 1).mem.fram.length < (atFram [1, 2, 3, 4] 1).off.toNat + 4 :=
  ⟨⟨_, _, _, _, rfl, hash_bytes (Config.hash32 [])⟩, ⟨_, _, _, _, rfl, hash_bytes_flipped (Config.hash32 [])⟩, by decide⟩

theorem witness_CsumChkAcceptsExactlyWhatCsumGenWrote :
    4 ≤ (small 9 9 4).capFram ∧ 0 < 4 ∧ 3 < 4 ∧
      (commandWith (small 9 9 4) .csumGen State.reset).mem.byte .fram 0 ≠ some 1 ∧
      (commandWith (small 9 9 4) .csumGen State.reset).mem.byte .fram 3 ≠ some 1 := by decide

theorem witness_FrameEncFailsOnlyWithCompressorOrCapacity :
    failc.compress State.reset.mem.cont = none ∧
    (rle.compress eightA = some [0x08, 0x41] ∧ (assembleFrame rle eightA [0x08, 0x41]).payload.length ≤ rle.capPayl ∧
      (assembleFrame rle eightA [0x08, 0x41]).container.length ≤ rle.capFram) ∧
    (small 9 1 99).capPayl < (assembleFrame (small 9 1 99) eightA [0x08, 0x41]).payload.length ∧
    (small 9 9 28).capFram < (assembleFrame (small 9 9 28) eightA [0x08, 0x41]).container.length := by decide

theorem witness_ContainerLength :
    rle.wf = true ∧ (commandWith rle .frameEnc (start 0 0 0 eightA [] [])).errFlag = false := by decide

/-- A stored frame of the records given, with the hashes the open hash has. -/
def storedFrame (recs : List (ByteSeq × Bool)) (u : Bool) (post : ByteSeq) : ByteSeq :=
  [0x04, 0x22, 0x4D, 0x18] ++ ((0x6C : Byte) :: 0x40 :: le64 2) ++
    [(Config.hash32 ((0x6C : Byte) :: 0x40 :: le64 2)).extractLsb' 8 8] ++ records recs ++ sentinel u ++
    le32 (Config.hash32 (payloadOf recs)) ++ post

/-- One record and a trailing byte; and no record, with the flagged sentinel. -/
theorem witness_FrameDecRecoversStoredFrame :
    (RecordsLegal [([0x61], true)] ∧ allUncompressed [([0x61], true)] = true ∧
      (atFram (storedFrame [([0x61], true)] false [0xEE]) 0).mem.wf params = true ∧
      (atFram (storedFrame [([0x61], true)] false [0xEE]) 0).mem.fram =
        [0x04, 0x22, 0x4D, 0x18] ++ ((0x6C : Byte) :: 0x40 :: le64 2) ++
          [(Config.hash32 ((0x6C : Byte) :: 0x40 :: le64 2)).extractLsb' 8 8] ++ records [([0x61], true)] ++
          sentinel false ++ le32 (Config.hash32 (payloadOf [([0x61], true)])) ++ [0xEE]) ∧
    (RecordsLegal [] ∧ allUncompressed [] = true ∧ (atFram (storedFrame [] true []) 0).mem.wf params = true ∧
      (atFram (storedFrame [] true []) 0).mem.fram =
        [0x04, 0x22, 0x4D, 0x18] ++ ((0x6C : Byte) :: 0x40 :: le64 2) ++
          [(Config.hash32 ((0x6C : Byte) :: 0x40 :: le64 2)).extractLsb' 8 8] ++ records [] ++
          sentinel true ++ le32 (Config.hash32 (payloadOf [])) ++ []) := by
  refine ⟨⟨?_, rfl, ?_, rfl⟩, ⟨nil_legal, rfl, ?_, rfl⟩⟩
  · intro r hr
    rw [List.mem_singleton] at hr
    subst hr; decide
  · simp [Memory.wf, atFram, start, storedFrame, params, encodeBsf_length]
  · simp [Memory.wf, atFram, start, storedFrame, params]

/-- A stored frame of one byte up to its sentinel, then any rest. -/
def bodyStored (rest : ByteSeq) : ByteSeq :=
  [0x04, 0x22, 0x4D, 0x18] ++ ((0x6C : Byte) :: 0x40 :: le64 1) ++
    [(rle.hash32 ((0x6C : Byte) :: 0x40 :: le64 1)).extractLsb' 8 8] ++ records [([0x61], true)] ++ sentinel false ++ rest

/-- Three bytes after the sentinel, four wrong ones, and the hash with buffers that are too small. -/
theorem witness_FrameDecChecksStoredFrame :
    RecordsLegal [([0x61], true)] ∧ allUncompressed [([0x61], true)] = true ∧
    ((atFram (bodyStored [0x61, 0, 0]) 0).mem.fram = bodyStored [0x61, 0, 0] ∧ ([0x61, 0, 0] : ByteSeq).length < 4) ∧
    ((atFram (bodyStored [0x61, 0, 0, 1]) 0).mem.fram = bodyStored [0x61, 0, 0, 1] ∧
      4 ≤ ([0x61, 0, 0, 1] : ByteSeq).length ∧
      ([0x61, 0, 0, 1] : ByteSeq).take 4 ≠ le32 (rle.hash32 (payloadOf [([0x61], true)]))) ∧
    ([0x61, 0, 0, 0, 0xEE] : ByteSeq) = le32 ((small 1 0 99).hash32 (payloadOf [([0x61], true)])) ++ [0xEE] ∧
    (small 1 0 99).capPayl < (payloadOf [([0x61], true)]).length ∧
    (small 0 1 99).capCont < (payloadOf [([0x61], true)]).length := by
  refine ⟨?_, by decide, ⟨rfl, by decide⟩, ⟨rfl, by decide, by decide⟩, by decide, by decide, by decide⟩
  intro r hr
  rw [List.mem_singleton] at hr
  subst hr; decide

/-- The one record of V80's frame. -/
def record80 : List (ByteSeq × Bool) := [([0x08, 0x41], false)]

theorem record80_legal : RecordsLegal record80 := by
  intro r hr
  rw [record80, List.mem_singleton] at hr
  subst hr; decide

/-- V80's frame up to its sentinel, then any rest. -/
def body80 (csize : Word64) (rest : ByteSeq) : ByteSeq :=
  [0x04, 0x22, 0x4D, 0x18] ++ ((0x6C : Byte) :: 0x40 :: le64 csize) ++
    [(rle.hash32 ((0x6C : Byte) :: 0x40 :: le64 csize)).extractLsb' 8 8] ++ records record80 ++ sentinel false ++ rest

/-- The decompressor's answer has the content size: with the checksum, with three bytes, with another checksum, with buffers
too small; and it has another length. -/
theorem witness_FrameDecDecompressesPayload :
    RecordsLegal record80 ∧ allUncompressed record80 = false ∧
    (atFram (body80 8 (le32 (rle.hash32 eightA))) 0).mem.fram = body80 8 (le32 (rle.hash32 eightA)) ∧
    rle.decompress (payloadOf record80) (payloadOf record80).length (8 : Word64).toNat = some eightA ∧
    eightA.length = (8 : Word64).toNat ∧ (payloadOf record80).length ≤ rle.capPayl ∧ eightA.length ≤ rle.capCont ∧
    ((small 9 1 99).capPayl < (payloadOf record80).length ∧ (small 7 9 99).capCont < eightA.length) ∧
    ([0x80, 0xF0, 0x3E] : ByteSeq).length < 4 ∧
    (4 ≤ ([0x80, 0xF0, 0x3E, 0x42] : ByteSeq).length ∧
      ([0x80, 0xF0, 0x3E, 0x42] : ByteSeq).take 4 ≠ le32 (rle.hash32 eightA)) ∧
    (∀ y, rle.decompress (payloadOf record80) (payloadOf record80).length (9 : Word64).toNat = some y →
      y.length ≠ (9 : Word64).toNat) ∧
    (∀ y, nocomp.decompress (payloadOf record80) (payloadOf record80).length (8 : Word64).toNat = some y →
      y.length ≠ (8 : Word64).toNat) := by
  refine ⟨record80_legal, by decide, rfl, by decide, by decide, by decide, by decide, by decide, by decide, by decide, ?_, ?_⟩
  · intro y hy
    have hd : rle.decompress (payloadOf record80) (payloadOf record80).length (9 : Word64).toNat = some eightA := by decide
    rw [hd] at hy
    cases hy; decide
  · intro y hy; cases hy

theorem witness_FrameDecReportsHeaderThenBlockErrors :
    (commandWith rle .hdrDec (atFram [0x04, 0x22, 0x4D, 0x19] 0)).errFlag = true ∧
    ((commandWith rle .hdrDec (atFram header19 0)).errFlag = false ∧
      ¬ ∃ (hdr post : ByteSeq) (recs : List (ByteSeq × Bool)) (u : Bool), RecordsLegal recs ∧
        (atFram header19 0).mem.fram = hdr ++ records recs ++ sentinel u ++ post ∧ hdr.length = 15) := by
  refine ⟨by decide, by decide, ?_⟩
  rintro ⟨hdr, post, recs, u, -, h, h15⟩
  have hl := congrArg List.length h
  have h19 : (atFram header19 0).mem.fram.length = 15 := rfl
  simp only [List.length_append, sentinel_length, h19] at hl
  omega

theorem witness_TrailingBytesAreNotRead : (commandWith rle .frameDec (atFram frame80 0)).errFlag = false := by decide

/-- The state after `FRAME_ENC` of a content with `RLE`. -/
def encoded (x : ByteSeq) : State := commandWith rle .frameEnc (start 0 0 0 x [] [])

/-- A stored frame, a compressed one, and the empty one. -/
theorem witness_FrameRoundTrip :
    rle.wf = true ∧ rle.splitPolicy = .ceil ∧ (start 0 0 0 eightA [] []).mem.wf rle = true ∧
    (rle.compress [0x61, 0x62] = some [0x01, 0x61, 0x01, 0x62] ∧ ([0x61, 0x62] : ByteSeq).length < 4 ∧
      (encoded [0x61, 0x62]).errFlag = false ∧ (atFram (frame78 ++ [0xDE]) 7).mem.fram = (encoded [0x61, 0x62]).mem.fram ++ [0xDE]) ∧
    (rle.compress eightA = some [0x08, 0x41] ∧ rle.decompress [0x08, 0x41] 2 eightA.length = some eightA ∧
      (encoded eightA).errFlag = false ∧ (atFram frame80 0).mem.fram = (encoded eightA).mem.fram ++ []) ∧
    (rle.compress [] = some [] ∧ (encoded []).errFlag = false ∧ (atFram frame76 0).mem.fram = (encoded []).mem.fram ++ []) := by
  decide

theorem witness_FallbackStoresTheContent :
    rle.wf = true ∧ rle.splitPolicy = .ceil ∧ (start 0 0 0 [0x61, 0x62] [] []).mem.wf rle = true ∧
      rle.compress [0x61, 0x62] = some [0x01, 0x61, 0x01, 0x62] ∧
      ([0x61, 0x62] : ByteSeq).length < ([0x01, 0x61, 0x01, 0x62] : ByteSeq).length ∧
      (encoded [0x61, 0x62]).errFlag = false := by decide

/-- The first and the last byte of the stored checksum (V90). -/
theorem witness_TrailerTamperIsDetected :
    rle.wf = true ∧ (atFram frame78 0).mem.wf rle = true ∧ (commandWith rle .frameDec (atFram frame78 0)).errFlag = false ∧
      (commandWith rle .frameDec (atFram frame78 0)).off.toNat ≤ 25 + 4 ∧
      28 < (commandWith rle .frameDec (atFram frame78 0)).off.toNat ∧
      (atFram frame78 0).mem.byte .fram 25 ≠ some 0x48 ∧ (atFram frame78 0).mem.byte .fram 28 ≠ some 0x48 := by decide

/-- P2's state after `HDR_DEC` and `BLK_READ`. -/
def decodedByHand (f : ByteSeq) : State := commandWith rle .blkRead (commandWith rle .hdrDec (atFram f 0))

/-- V78's frame by the stored path, V80's by the host's own decompression (P2). -/
theorem witness_LeafCommandsComposeToFrameDec :
    rle.wf = true ∧
    ((atFram frame78 0).mem.wf rle = true ∧ (commandWith rle .hdrDec (atFram frame78 0)).errFlag = false ∧
      (decodedByHand frame78).errFlag = false ∧ (decodedByHand frame78).res1 = 1 ∧
      (decodedByHand frame78).mem.payl.length ≤ rle.capCont) ∧
    ((atFram frame80 0).mem.wf rle = true ∧ (commandWith rle .hdrDec (atFram frame80 0)).errFlag = false ∧
      (decodedByHand frame80).errFlag = false ∧ (decodedByHand frame80).res1 = 0 ∧
      rle.decompress (decodedByHand frame80).mem.payl (decodedByHand frame80).mem.payl.length
        (decodedByHand frame80).hdrCsize.toNat = some eightA ∧
      eightA.length = (decodedByHand frame80).hdrCsize.toNat ∧ eightA.length ≤ rle.capCont) := by decide

theorem witness_LeafCommandsComposeToFrameEnc :
    rle.wf = true ∧ (start 0 0 0 [0x61, 0x62] [] []).mem.wf rle = true ∧ (encoded [0x61, 0x62]).errFlag = false := by decide

/-- The block of V43 with a hash that is never 0: `NOCOMP`, `SPLIT_POLICY = reference`. -/
def reference43 : Params := { nocomp with splitPolicy := .reference, hash32 := fun _ => 1 }

/-- V43's content. -/
def content43 : ByteSeq := List.replicate 4000000 0x55

theorem content43_length : content43.length = 4000000 := List.length_replicate

/-- What the statement assumes, of a content. -/
def Breaks (x : ByteSeq) : Prop :=
  reference43.wf = true ∧ reference43.splitPolicy = .reference ∧ (start 0 0 0 x [] []).mem.wf reference43 = true ∧
    reference43.compress x = some (x ++ [0x00]) ∧ x.length < (x ++ [0x00]).length ∧
    x ≠ [] ∧ x.length % 4000000 = 0 ∧ reference43.hash32 x ≠ 0 ∧
    (commandWith reference43 .frameEnc (start 0 0 0 x [] [])).errFlag = false

theorem breaks_of_length {x : ByteSeq} (hx : x.length = 4000000) : Breaks x := by
  have hlt : x.length < (x ++ [0x00]).length := by simp
  have hpl : (assembleFrame reference43 x (x ++ [0x00])).payload = x := by
    simp only [assembleFrame]; rw [choosePayload_stored hlt]
  have hb : (assembleFrame reference43 x (x ++ [0x00])).blocks ≤ 4000001 := by
    have hd : (assembleFrame reference43 x (x ++ [0x00])).blocks =
        (split .reference x.length (classMax (classOf x.length))).length := by
      simp only [assembleFrame]; rw [choosePayload_stored hlt]; rfl
    have hdiv := Nat.div_le_self x.length (classMax (classOf x.length))
    rw [hd, split_reference_length]
    split_ifs <;> omega
  have hcl := assembleFrame_length reference43 x (x ++ [0x00])
  rw [hpl, hx] at hcl
  have hcap : reference43.capPayl = 2 ^ 64 - 1 ∧ reference43.capFram = 2 ^ 64 - 1 := ⟨rfl, rfl⟩
  refine ⟨by decide, rfl, ?_, rfl, hlt, ?_, by rw [hx], (by decide : (1 : Word32) ≠ 0), ?_⟩
  · have hcc : reference43.capCont = 2 ^ 64 - 1 := rfl
    simp [Memory.wf, start, hx, hcap.1, hcap.2, hcc]
  · rintro rfl; simp at hx
  · rw [commandWith_frameEnc_ok (p := reference43) (s := start 0 0 0 x [] []) (c := x ++ [0x00]) rfl
      (by change (assembleFrame reference43 x (x ++ [0x00])).payload.length ≤ _
          rw [hpl, hx, hcap.1]; decide)
      (by change (assembleFrame reference43 x (x ++ [0x00])).container.length ≤ _
          rw [hcl, hcap.2]; omega)]
    exact State.succeed_errFlag _

theorem witness_ReferenceSplitBreaksTheRoundTrip : Breaks content43 := breaks_of_length content43_length

end Sys2Proof.Tests
end

section
/-! Little-endian fields byte by byte, and the value a write to `CMD` counts by (spec/00_scope.md R16, R17). -/

namespace Sys2Proof.Machine

theorem le32_eq_map_range (w : Word32) : le32 w = (List.range 4).map fun k => w.extractLsb' (8 * k) 8 := rfl

theorem le64_eq_map_range (w : Word64) : le64 w = (List.range 8).map fun k => w.extractLsb' (8 * k) 8 := rfl

/-- Offset `k` of `LE32(w)` holds bits `8k+7:8k` of `w` (R16). -/
theorem le32_getElem? (w : Word32) {k : Nat} (hk : k < 4) : (le32 w)[k]? = some (w.extractLsb' (8 * k) 8) := by
  rw [le32_eq_map_range, List.getElem?_map, List.getElem?_range hk, Option.map_some]

/-- Offset `k` of `LE64(w)` holds bits `8k+7:8k` of `w` (R16). -/
theorem le64_getElem? (w : Word64) {k : Nat} (hk : k < 8) : (le64 w)[k]? = some (w.extractLsb' (8 * k) 8) := by
  rw [le64_eq_map_range, List.getElem?_map, List.getElem?_range hk, Option.map_some]

/-- Settles O27: both placements by offset, then the two inverses of each width. -/
theorem littleEndianFieldsRoundTrip : Obligations.LittleEndianFieldsRoundTrip :=
  ⟨fun w _ hk => le32_getElem? w hk, fun w _ hk => le64_getElem? w hk, unle32_le32, unle64_le64,
    fun _ h => le32_unle32 h, fun _ h => le64_unle64 h⟩

theorem hostAct_write_cmd (v : Word64) (s : State) : hostAct (.write .cmd v) s = hostCommand (commandByte v) s := rfl

/-- A byte widened to a register's 64 bits still selects its command. -/
@[simp] theorem commandByte_setWidth (code : Byte) : commandByte (code.setWidth 64) = code :=
  (BitVec.setWidth_setWidth_of_le code (by decide)).trans code.setWidth_eq

/-- Settles O9: both writes come to the command of the same byte. -/
theorem commandWriteTakesLowByte : Obligations.CommandWriteTakesLowByte := by
  intro s v
  rw [hostAct_write_cmd, hostAct_write_cmd, commandByte_setWidth, commandByte]

end Sys2Proof.Machine
end

section
/-! The reset state, and what each host action does to the registers and the buffers (spec/10_state.md R22, R31, R34). -/

namespace Sys2Proof.Machine

/-! ### Reset -/

theorem readReg_reset (r : Reg) : State.reset.readReg r = 0 := by cases r <;> rfl

theorem buf_reset (b : BufName) : State.reset.mem.buf b = [] := by cases b <;> rfl

theorem readReg_assertReset (s : State) (r : Reg) : s.assertReset.readReg r = State.reset.readReg r := by
  cases r <;> rfl

/-- Settles O1: the reset input leaves the registers and the buffers of the reset state, and there each one is clear. -/
theorem resetClearsRegistersAndBuffers : Obligations.ResetClearsRegistersAndBuffers := by
  refine ⟨readReg_reset, buf_reset, fun s rest h => ⟨_, step_cons h, fun r => ?_, buf_reset⟩⟩
  exact (readReg_assertReset _ r).trans (readReg_reset r)

/-- Settles O2: at reset `STATUS` and `ERR` are 0, the buffers empty and the header registers unwritten. -/
theorem resetMeetsInvariant : Obligations.ResetMeetsInvariant := fun p =>
  { status := ⟨by decide, by decide, by decide, by decide⟩
    memory := Memory.reset_wf p
    header := .inl ⟨rfl, rfl, rfl, rfl⟩
    fresh := fun _ => ⟨rfl, rfl, rfl, rfl, rfl, rfl, rfl, rfl⟩ }

/-! ### Host writes and loads -/

@[simp] theorem State.hostWriteReg_mem (s : State) (r : Reg) (v : Word64) : (s.hostWriteReg r v).mem = s.mem := by
  cases r <;> rfl

/-- Settles O7: the step takes the write, and the byte it carries selects the command. -/
theorem stepRunsDecodedCommand : Obligations.StepRunsDecodedCommand := by
  intro s code i rest hhost hdec
  rw [step_cons hhost, hostAct_command hdec (commandByte_setWidth code)]

/-- Settles O8: one arm per command, each the command at `params`. -/
theorem execIsCommandAtParams : Obligations.ExecIsCommandAtParams := exec_eq

/-- Settles O10: register by register, `State.hostWriteReg` sets the one field or none. -/
theorem hostWritesOnlyWritableRegisters : Obligations.HostWritesOnlyWritableRegisters := by
  intro s r v rest hhost hr
  rw [step_cons hhost, hostAct_write hr]
  cases r <;> rfl

theorem hostAct_load_fits {b : BufName} {bytes : ByteSeq} (h : bytes.length ≤ params.cap b) (s : State) :
    hostAct (.load b bytes) s = .next (s.setBuf b bytes) := if_pos (fits_iff.2 h)

theorem hostAct_load_over {b : BufName} {bytes : ByteSeq} (h : params.cap b < bytes.length) (s : State) :
    hostAct (.load b bytes) s = .fault .loadOverCapacity :=
  if_neg fun hf => absurd (fits_iff.1 hf) (Nat.not_le.2 h)

/-- A buffer's content shows in the length registers only (R28). -/
theorem State.readReg_setBuf (s : State) (b : BufName) (bytes : ByteSeq) {r : Reg} (hc : r ≠ .clen) (hp : r ≠ .plen)
    (hf : r ≠ .flen) : (s.setBuf b bytes).readReg r = s.readReg r := by
  cases r <;> simp [State.readReg] at hc hp hf ⊢

theorem State.readReg_withHost (s : State) (host : List HostAction) (r : Reg) :
    State.readReg { s with host := host } r = s.readReg r := by
  cases r <;> rfl

/-- A host action that is no command, no load and no reset leaves the buffers as they were (R31). -/
theorem hostAct_mem {a : HostAction} (hcmd : ∀ v, a ≠ .write .cmd v) (hload : ∀ b bytes, a ≠ .load b bytes)
    (hreset : a ≠ .reset) (s : State) : ∃ t, hostAct a s = .next t ∧ t.mem = s.mem := by
  cases a with
  | write r v =>
    have hr : r ≠ .cmd := fun h => hcmd v (h ▸ rfl)
    exact ⟨_, hostAct_write hr v s, s.hostWriteReg_mem r v⟩
  | load b bytes => exact absurd rfl (hload b bytes)
  | get r => exact ⟨_, rfl, rfl⟩
  | read b => exact ⟨_, rfl, rfl⟩
  | mov src dst => exact ⟨_, rfl, rfl⟩
  | reset => exact absurd rfl hreset

/-- Settles O11: a load is `State.setBuf` or the stop, and no action besides a command and a reset touches memory. -/
theorem hostChangesBuffersOnlyByLoading : Obligations.HostChangesBuffersOnlyByLoading := by
  intro s a rest hhost
  rw [step_cons hhost]
  refine ⟨?_, fun hcmd hload hreset => ?_⟩
  · rintro b bytes rfl
    refine ⟨fun hle => ⟨_, hostAct_load_fits hle _, ?_, ?_, rfl, rfl, rfl, ?_⟩, fun hlt => hostAct_load_over hlt _⟩
    · exact Memory.buf_setBuf_same _ b bytes
    · exact fun b' hb => Memory.buf_setBuf_ne _ hb bytes
    · intro r hc hp hf
      rw [State.readReg_setBuf _ b bytes hc hp hf, State.readReg_withHost]
  · obtain ⟨t, ht, hmem⟩ := hostAct_mem hcmd hload hreset { s with host := rest }
    exact ⟨t, ht, fun b off => by rw [Memory.byte, hmem, Memory.byte]⟩

end Sys2Proof.Machine
end

section
/-! What a successful command commits, said once for all commands, and the frame and the cursor bound that follow
(spec/10_state.md R22 to R24, R32). -/

namespace Sys2Proof.Machine

/-- The form of what each command commits: the fields it writes (R22, R32) with any values, and of those values only that
a buffer's content fits (R33), that a header is one whose checksum byte is right (R106), and that the cursor is within
`FRAM` (R24). -/
inductive Commits (p : Params) (s : State) : Instr → State → Prop
  | bscSel (v w : Word64) : Commits p s .bscSel { s with res0 := v, res1 := w }
  | hdrEnc {f : ByteSeq} (v w : Word64) (hf : fits p .fram f = true) :
      Commits p s .hdrEnc { s.setBuf .fram f with res0 := v, res1 := w }
  | hdrDec {h : FrameHeader} {o : Word64} (hh : h.hc = headerChecksum p (descriptorBytes h.flg h.bd h.csize))
      (ho : o.toNat ≤ s.mem.fram.length) : Commits p s .hdrDec { s.setHeader h with off := o }
  | bsfEnc {f : ByteSeq} (v : Word64) (hf : fits p .fram f = true) :
      Commits p s .bsfEnc { s.setBuf .fram f with res0 := v }
  | bsfDec (v w : Word64) : Commits p s .bsfDec { s with res0 := v, res1 := w }
  | blkWrite {f : ByteSeq} (v : Word64) (hf : fits p .fram f = true) :
      Commits p s .blkWrite { s.setBuf .fram f with res0 := v }
  | blkRead {y : ByteSeq} {o : Word64} (v w : Word64) (hy : fits p .payl y = true) (ho : o.toNat ≤ s.mem.fram.length) :
      Commits p s .blkRead { s.setBuf .payl y with res0 := v, res1 := w, off := o }
  | csumGen {f : ByteSeq} (v : Word64) (hf : fits p .fram f = true) :
      Commits p s .csumGen { s.setBuf .fram f with res0 := v }
  | csumChk (v : Word64) : Commits p s .csumChk { s with res0 := v }
  | frameEnc {y f : ByteSeq} (v w : Word64) (hy : fits p .payl y = true) (hf : fits p .fram f = true) :
      Commits p s .frameEnc { (s.setBuf .payl y).setBuf .fram f with res0 := v, res1 := w }
  | frameDec {h : FrameHeader} {y x : ByteSeq} {o : Word64} (v w : Word64)
      (hh : h.hc = headerChecksum p (descriptorBytes h.flg h.bd h.csize))
      (hy : fits p .payl y = true) (hx : fits p .cont x = true) (ho : o.toNat ≤ s.mem.fram.length) :
      Commits p s .frameDec { ((s.setHeader h).setBuf .payl y).setBuf .cont x with res0 := v, res1 := w, off := o }

theorem decodeHeader_checksum {p : Params} {c : ByteSeq} {h : FrameHeader} (hd : decodeHeader p c = .ok h) :
    h.hc = headerChecksum p (descriptorBytes h.flg h.bd h.csize) := by
  obtain ⟨-, -, hh⟩ := decodeHeader_ok hd
  exact hh

/-- Truncation to a register's width takes nothing past a bound. -/
theorem ofNat_toNat_le {m n : Nat} (h : m ≤ n) : (BitVec.ofNat 64 m).toNat ≤ n := by
  rw [BitVec.toNat_ofNat]; exact (Nat.mod_le _ _).trans h

/-- A decoded frame ends within its container (R155). -/
theorem decodeFrame_endOffset_le {p : Params} {f : ByteSeq} {d : DecodedFrame} (h : decodeFrame p f = .ok d) :
    d.endOffset ≤ f.length := by
  obtain ⟨-, -, -, hcheck, hend⟩ := decodeFrame_ok h
  obtain ⟨-, hle, -⟩ := checkContent_ok hcheck
  exact hend ▸ hle

/-- Every successful command commits in the form `Commits`. -/
theorem runCommand_commits {p : Params} {i : Instr} {s t : State} (h : runCommand p i s = .ok t) : Commits p s i t := by
  cases i with
  | bscSel => cases h; exact .bscSel _ _
  | hdrEnc =>
    rcases runHdrEnc_cases p s with ⟨hc, hr⟩ | ⟨-, hr⟩ <;> cases hr.symm.trans h
    exact .hdrEnc _ _ (fits_iff.2 hc)
  | hdrDec =>
    rcases runHdrDec_cases p s with ⟨d, hd, hr⟩ | ⟨k, -, hr⟩ <;> cases hr.symm.trans h
    exact .hdrDec (decodeHeader_checksum hd) (decodeHeader_length hd)
  | bsfEnc =>
    rcases runBsfEnc_cases p s with ⟨-, -, hc, hr⟩ | ⟨-, -, -, hr⟩ | ⟨-, hr⟩ <;> cases hr.symm.trans h
    exact .bsfEnc _ (fits_iff.2 hc)
  | bsfDec =>
    rcases runBsfDec_cases p s with ⟨-, hr⟩ | ⟨-, hr⟩ <;> cases hr.symm.trans h
    exact .bsfDec _ _
  | blkWrite =>
    rcases runBlkWrite_cases p s with ⟨-, -, hc, hr⟩ | ⟨-, -, -, hr⟩ | ⟨-, hr⟩ <;> cases hr.symm.trans h
    exact .blkWrite _ (fits_iff.2 hc)
  | blkRead =>
    rcases runBlkRead_cases p s with ⟨r, hread, ⟨hf, hr⟩ | ⟨-, hr⟩⟩ | ⟨-, hr⟩ <;> cases hr.symm.trans h
    obtain ⟨hoff, -, -⟩ := readBlocks_bounds hread
    exact .blkRead _ _ hf (ofNat_toNat_le hoff)
  | csumGen =>
    rcases runCsumGen_cases p s with ⟨hc, hr⟩ | ⟨-, hr⟩ <;> cases hr.symm.trans h
    exact .csumGen _ (fits_iff.2 hc)
  | csumChk =>
    rcases runCsumChk_cases p s with ⟨w, -, hr⟩ | ⟨k, -, hr⟩ <;> cases hr.symm.trans h
    exact .csumChk _
  | frameEnc =>
    rcases runFrameEnc_cases p s with ⟨c, -, ⟨hf, hr⟩ | ⟨-, hr⟩⟩ | ⟨-, hr⟩ <;> cases hr.symm.trans h
    obtain ⟨hpayl, hfram⟩ := Bool.and_eq_true_iff.1 hf
    exact .frameEnc _ _ hpayl hfram
  | frameDec =>
    rcases runFrameDec_cases p s with ⟨d, hd, ⟨hf, hr⟩ | ⟨-, hr⟩⟩ | ⟨k, -, hr⟩ <;> cases hr.symm.trans h
    obtain ⟨hpayl, hcont⟩ := Bool.and_eq_true_iff.1 hf
    obtain ⟨hhead, -⟩ := decodeFrame_ok hd
    exact .frameDec _ _ (decodeHeader_checksum hhead) hpayl hcont (ofNat_toNat_le (decodeFrame_endOffset_le hd))

/-- A command ends in a success that commits in the form `Commits`, or in an error kind (R176). -/
theorem commandWith_cases (p : Params) (i : Instr) (s : State) :
    (∃ t, Commits p s i t ∧ commandWith p i s = t.succeed) ∨ ∃ k, commandWith p i s = s.raise k := by
  rcases s.complete_cases (runCommand p i s) with ⟨t, hrun, ht, -⟩ | ⟨k, -, hk, -⟩
  · exact .inl ⟨t, runCommand_commits hrun, ht⟩
  · exact .inr ⟨k, hk⟩

/-! ### The frame on the registers (R22, R23) -/

/-- The registers a command may write besides `STATUS` and `ERR` (R22, the column "written by the block"). -/
def resultRegs : Instr → List Reg
  | .bscSel => [.res0, .res1]
  | .hdrEnc => [.res0, .res1, .flen]
  | .hdrDec => [.off, .hdrFlg, .hdrBd, .hdrCsize, .hdrHc]
  | .bsfEnc => [.res0, .flen]
  | .bsfDec => [.res0, .res1]
  | .blkWrite => [.res0, .flen]
  | .blkRead => [.res0, .res1, .off, .plen]
  | .csumGen => [.res0, .flen]
  | .csumChk => [.res0]
  | .frameEnc => [.res0, .res1, .plen, .flen]
  | .frameDec => [.res0, .res1, .off, .clen, .plen, .hdrFlg, .hdrBd, .hdrCsize, .hdrHc]

/-- Each command against each register: either the command's list names it, or the two reads are of one field. -/
theorem Commits.readReg {p : Params} {s t : State} {i : Instr} (h : Commits p s i t) {r : Reg}
    (hr : r ∉ resultRegs i) : t.readReg r = s.readReg r := by
  cases h <;> cases r <;>
    simp [resultRegs, State.readReg, State.clen, State.plen, State.flen] at hr ⊢

theorem State.readReg_succeed (s : State) {r : Reg} (hs : r ≠ .status) (he : r ≠ .err) :
    s.succeed.readReg r = s.readReg r := by
  cases r <;> simp [State.readReg, State.clen, State.plen, State.flen] at hs he ⊢

theorem State.readReg_raise (s : State) (k : ErrKind) {r : Reg} (hs : r ≠ .status) (he : r ≠ .err) :
    (s.raise k).readReg r = s.readReg r := by
  cases r <;> simp [State.readReg, State.clen, State.plen, State.flen] at hs he ⊢

theorem commandWith_readReg {p : Params} {i : Instr} {s : State} {r : Reg}
    (hr : r ∉ Reg.status :: .err :: resultRegs i) : (commandWith p i s).readReg r = s.readReg r := by
  simp only [List.mem_cons, not_or] at hr
  obtain ⟨hs, he, hres⟩ := hr
  rcases commandWith_cases p i s with ⟨t, ht, heq⟩ | ⟨k, heq⟩
  · rw [heq, t.readReg_succeed hs he, ht.readReg hres]
  · rw [heq, s.readReg_raise k hs he]

/-- Settles O15: the obligation's list is `STATUS`, `ERR` and `resultRegs`, command by command. -/
theorem commandsWriteOnlyTheirRegisters : Obligations.CommandsWriteOnlyTheirRegisters := by
  intro p i s r hr
  refine commandWith_readReg ?_
  cases i <;> exact hr

/-! ### The frame on the buffers (R32) -/

/-- The buffers a command may write (R32, the column "writes"). -/
def resultBufs : Instr → List BufName
  | .bscSel | .hdrDec | .bsfDec | .csumChk => []
  | .hdrEnc | .bsfEnc | .blkWrite | .csumGen => [.fram]
  | .blkRead => [.payl]
  | .frameEnc => [.payl, .fram]
  | .frameDec => [.payl, .cont]

/-- Each command against each buffer: either the command's list names it, or the content is the old one. -/
theorem Commits.buf {p : Params} {s t : State} {i : Instr} (h : Commits p s i t) {b : BufName}
    (hb : b ∉ resultBufs i) : t.mem.buf b = s.mem.buf b := by
  cases h <;> cases b <;> simp [resultBufs, Memory.buf] at hb ⊢

theorem commandWith_buf {p : Params} {i : Instr} {s : State} {b : BufName} (hb : b ∉ resultBufs i) :
    (commandWith p i s).mem.buf b = s.mem.buf b := by
  rcases commandWith_cases p i s with ⟨t, ht, heq⟩ | ⟨k, heq⟩
  · rw [heq, State.succeed_mem, ht.buf hb]
  · rw [heq, State.raise_mem]

theorem Commits.host_bus {p : Params} {s t : State} {i : Instr} (h : Commits p s i t) :
    t.host = s.host ∧ t.bus = s.bus := by
  cases h <;> exact ⟨rfl, rfl⟩

theorem commandWith_host_bus (p : Params) (i : Instr) (s : State) :
    (commandWith p i s).host = s.host ∧ (commandWith p i s).bus = s.bus := by
  rcases commandWith_cases p i s with ⟨t, ht, heq⟩ | ⟨k, heq⟩
  · rw [heq]; exact ht.host_bus
  · rw [heq]; exact ⟨rfl, rfl⟩

/-- Settles O16: the obligation's list is `resultBufs`, command by command. -/
theorem commandsWriteOnlyTheirBuffers : Obligations.CommandsWriteOnlyTheirBuffers := by
  refine fun p i s => ⟨fun b off hb => ?_, commandWith_host_bus p i s⟩
  have hbuf : (commandWith p i s).mem.buf b = s.mem.buf b := commandWith_buf (by cases i <;> exact hb)
  rw [Memory.byte, hbuf, Memory.byte]

/-! ### The cursor (R24) -/

/-- The three commands that write `OFF` leave `FRAM` as it is and the cursor within it. -/
theorem Commits.off_le {p : Params} {s t : State} {i : Instr} (h : Commits p s i t)
    (hi : i ∈ [Instr.hdrDec, .blkRead, .frameDec]) : t.off.toNat ≤ t.mem.fram.length := by
  cases h with
  | hdrDec hh ho => exact ho
  | blkRead v w hy ho => exact ho
  | frameDec v w hh hy hx ho => exact ho
  | bscSel | hdrEnc | bsfEnc | bsfDec | blkWrite | csumGen | csumChk | frameEnc => exact absurd hi (by decide)

/-- Settles O20. The hypotheses on the capacities are not needed: a truncated offset is smaller still. -/
theorem cursorStaysWithinFram : Obligations.CursorStaysWithinFram := by
  intro p i s _ _ hi hok
  rcases commandWith_cases p i s with ⟨t, ht, heq⟩ | ⟨k, heq⟩
  · rw [heq]; exact ht.off_le hi
  · rw [heq, State.raise_errFlag] at hok; cases hok

end Sys2Proof.Machine
end

section
/-! Every step keeps the invariant (spec/10_state.md R25 to R27, R31, R33, R34). -/

namespace Sys2Proof.Machine

/-! ### Commands -/

theorem Commits.mem_wf {p : Params} {s t : State} {i : Instr} (h : Commits p s i t) (hm : s.mem.wf p = true) :
    t.mem.wf p = true := by
  cases h with
  | bscSel | hdrDec | bsfDec | csumChk => exact hm
  | hdrEnc _ _ hf | bsfEnc _ hf | blkWrite _ hf | csumGen _ hf => exact Memory.setBuf_wf hm hf
  | blkRead _ _ hy _ => exact Memory.setBuf_wf hm hy
  | frameEnc _ _ hy hf => exact Memory.setBuf_wf (Memory.setBuf_wf hm hy) hf
  | frameDec _ _ _ hy hx _ => exact Memory.setBuf_wf (Memory.setBuf_wf hm hy) hx

/-- The header registers change by a header decode only, and it has checked the checksum byte (R27, R106). -/
theorem Commits.headerLegal {p : Params} {s t : State} {i : Instr} (h : Commits p s i t) (hl : s.HeaderLegal p) :
    t.HeaderLegal p := by
  cases h with
  | hdrDec hh _ => exact .inr hh
  | frameDec _ _ hh _ _ _ => exact .inr hh
  | bscSel | hdrEnc | bsfEnc | bsfDec | blkWrite | blkRead | csumGen | csumChk | frameEnc => exact hl

/-- After a completion the freshness clause is vacuous. -/
theorem State.freshUntilDone_of_done {s : State} (h : s.doneFlag = true) : s.FreshUntilDone := fun hd =>
  absurd (h.symm.trans hd) (by decide)

theorem State.inv_succeed {p : Params} {s : State} (hm : s.mem.wf p = true) (hl : s.HeaderLegal p) :
    s.succeed.Inv p :=
  ⟨statusLegal_succeed s, hm, hl, freshUntilDone_of_done s.succeed_doneFlag⟩

theorem State.inv_raise {p : Params} {s : State} (hm : s.mem.wf p = true) (hl : s.HeaderLegal p) (k : ErrKind) :
    (s.raise k).Inv p :=
  ⟨statusLegal_raise s k, hm, hl, freshUntilDone_of_done (s.raise_doneFlag k)⟩

/-- A command establishes the status and freshness clauses itself; it needs the other two from the state before. -/
theorem commandWith_inv {p : Params} {s : State} (hm : s.mem.wf p = true) (hl : s.HeaderLegal p) (i : Instr) :
    (commandWith p i s).Inv p := by
  rcases commandWith_cases p i s with ⟨t, ht, heq⟩ | ⟨k, heq⟩
  · exact heq ▸ State.inv_succeed (ht.mem_wf hm) (ht.headerLegal hl)
  · exact heq ▸ State.inv_raise hm hl k

/-- A write to `CMD` completes a command or raises `IllegalCommand`, and either way the invariant holds after it. -/
theorem hostAct_write_cmd_inv {v : Word64} {s t : State} (hs : s.Inv params)
    (h : hostAct (.write .cmd v) s = .next t) : t.Inv params := by
  cases hd : decode (commandByte v) with
  | ok i =>
    rw [hostAct_command hd rfl, exec_eq] at h; cases h
    exact commandWith_inv (s := { s with cmd := commandByte v }) hs.memory hs.header i
  | error e =>
    rw [hostAct_illegal hd rfl] at h; cases h
    exact State.inv_raise (s := { s with cmd := commandByte v }) hs.memory hs.header .illegalCommand

/-! ### The host's other actions -/

/-- The invariant does not speak of the operand registers, the cursor and the host's side, and of memory only that it has
its form. -/
theorem State.Inv.withHostSide {p : Params} {s : State} (hs : s.Inv p) (arg0 arg1 off : Word64) {mem : Memory}
    (hm : mem.wf p = true) (host : List HostAction) (bus : Option BusData) :
    State.Inv p { s with arg0 := arg0, arg1 := arg1, off := off, mem := mem, host := host, bus := bus } :=
  ⟨⟨hs.status.reserved_zero, hs.status.err_iff, hs.status.err_done, hs.status.err_range⟩, hm, hs.header, hs.fresh⟩

theorem State.Inv.hostWriteReg {p : Params} {s : State} (hs : s.Inv p) (r : Reg) (v : Word64) :
    (s.hostWriteReg r v).Inv p := by
  cases r with
  | arg0 => exact hs.withHostSide v s.arg1 s.off hs.memory s.host s.bus
  | arg1 => exact hs.withHostSide s.arg0 v s.off hs.memory s.host s.bus
  | off => exact hs.withHostSide s.arg0 s.arg1 v hs.memory s.host s.bus
  | cmd | status | err | res0 | res1 | clen | plen | flen | hdrFlg | hdrBd | hdrCsize | hdrHc => exact hs

theorem hostAct_inv {a : HostAction} {s t : State} (hs : s.Inv params) (h : hostAct a s = .next t) :
    t.Inv params := by
  have hside {mem : Memory} := hs.withHostSide s.arg0 s.arg1 s.off (mem := mem)
  cases a with
  | write r v =>
    by_cases hr : r = .cmd
    · subst hr; exact hostAct_write_cmd_inv hs h
    · rw [hostAct_write hr] at h; cases h
      exact hs.hostWriteReg r v
  | load b bytes =>
    by_cases hle : bytes.length ≤ params.cap b
    · rw [hostAct_load_fits hle] at h; cases h
      exact hside (Memory.setBuf_wf hs.memory (fits_iff.2 hle)) s.host s.bus
    · rw [hostAct_load_over (Nat.not_le.1 hle)] at h; cases h
  | get r => cases h; exact hside hs.memory _ _
  | read b => cases h; exact hside hs.memory _ _
  | mov src dst => cases h; exact hside hs.memory _ _
  | reset =>
    cases h
    exact (resetMeetsInvariant params).withHostSide 0 0 0 (Memory.reset_wf params) s.host s.bus

/-- Settles O3: with no action pending the state stays; otherwise the oldest action keeps the invariant. -/
theorem stepKeepsInvariant : Obligations.StepKeepsInvariant := by
  intro s t hs h
  cases hhost : s.host with
  | nil =>
    rw [step_idle hhost] at h; cases h
    exact hs
  | cons a rest =>
    rw [step_cons hhost] at h
    exact hostAct_inv (hs.withHostSide s.arg0 s.arg1 s.off hs.memory rest s.bus) h

end Sys2Proof.Machine
end

section
/-! The host's reads, each one step that leaves the block as it was (spec/20_memory.md R57; spec/10_state.md R22, R31;
spec/30_encoding.md R75). -/

namespace Sys2Proof.Machine

/-- The value is read after the action is taken off the pending ones, which no register shows (R57). -/
theorem step_get {s : State} {r : Reg} {rest : List HostAction} (h : s.host = .get r :: rest) :
    step s = .next { s with host := rest, bus := some (.word (s.readReg r)) } := by
  rw [step_cons h, hostAct, State.readReg_withHost]

theorem step_read {s : State} {b : BufName} {rest : List HostAction} (h : s.host = .read b :: rest) :
    step s = .next { s with host := rest, bus := some (.bytes (s.mem.buf b)) } := by
  rw [step_cons h, hostAct]

/-- The read of a `MOV`; its write is left as the oldest pending action (R75, log entry 14). -/
theorem step_mov {s : State} {src dst : Reg} {rest : List HostAction} (h : s.host = .mov src dst :: rest) :
    step s = .next { s with host := .write dst (s.readReg src) :: rest, bus := some (.word (s.readReg src)) } := by
  rw [step_cons h, hostAct, State.readReg_withHost]

/-- Settles O12: one clause for each read, and the step with no action pending. -/
theorem hostReadsHaveNoSideEffect : Obligations.HostReadsHaveNoSideEffect := fun _ _ =>
  ⟨fun _ => step_get, fun _ => step_read, fun _ _ => step_mov, step_idle⟩

end Sys2Proof.Machine
end

section
/-! The command codes read both ways, and the write of a byte that is none of them (spec/30_encoding.md R70 to R72). -/

namespace Sys2Proof.Machine

@[simp] theorem decode_encode (i : Instr) : decode (encode i) = .ok i := by cases i <;> rfl

/-- Each arm of the decoder that answers a command knows the byte's value, which is that command's code. -/
theorem encode_of_decode {code : Byte} {i : Instr} (h : decode code = .ok i) : encode i = code := by
  unfold decode at h
  split at h <;> cases h
  all_goals exact (BitVec.eq_of_toNat_eq ‹_›).symm

/-- Settles O4: each code of the table is the encoder's code of its command. -/
theorem commandCodesSelectCommands : Obligations.CommandCodesSelectCommands :=
  ⟨decode_encode .bscSel, decode_encode .hdrEnc, decode_encode .hdrDec, decode_encode .bsfEnc, decode_encode .bsfDec,
    decode_encode .blkWrite, decode_encode .blkRead, decode_encode .csumGen, decode_encode .csumChk,
    decode_encode .frameEnc, decode_encode .frameDec⟩

/-- Settles O5: the two directions. -/
theorem commandEncodingRoundTrip : Obligations.CommandEncodingRoundTrip :=
  ⟨fun i _ => decode_encode i, fun _ _ => encode_of_decode⟩

/-- Settles O6: the decoder rejects exactly these bytes, and the rejection is `IllegalCommand`. -/
theorem unassignedCodesAreIllegal : Obligations.UnassignedCodesAreIllegal := by
  intro s code rest hhost hcode
  obtain ⟨e, he⟩ := (decode_error_iff code).2 hcode
  rw [step_cons hhost, hostAct_illegal he (commandByte_setWidth code)]
  rfl

end Sys2Proof.Machine
end

section
/-! The flags and descriptor bytes of an encoded header at the default parameters (spec/00_scope.md R10;
spec/30_encoding.md R79 to R81; spec/40_header_codec.md R102 to R104). -/

namespace Sys2Proof.Machine

theorem encodeHeader_flagsByte (p : Params) (l : Word64) (n : Nat) :
    (encodeHeader p l n)[4]? = some (flagsByte p n) := rfl

theorem encodeHeader_descriptorByte (p : Params) (l : Word64) (n : Nat) :
    (encodeHeader p l n)[5]? = some (p.bdOfClass (classOf n)) := rfl

/-- The header always fits the default capacity, so `HDR_ENC` completes (R104). -/
theorem exec_hdrEnc (s : State) :
    exec .hdrEnc s = .next (State.succeed
      { s.setBuf .fram (encodeHeader params s.arg0 s.arg1.toNat) with
          res0 := params.classCode (classOf s.arg1.toNat)
          res1 := BitVec.ofNat 64 (classMax (classOf s.arg1.toNat)) }) := by
  rcases runHdrEnc_cases params s with ⟨-, h⟩ | ⟨hcap, -⟩
  · rw [exec_eq, commandWith, runCommand, h]; rfl
  · exact absurd hcap (by decide)

/-- The default `FLG_BASE` with the independence bit at its default position (R10). -/
theorem flagsByte_params (n : Nat) : flagsByte params n = if indep n then 0x6C else 0x4C := by
  rw [flagsByte]; cases indep n <;> rfl

/-- The fields of the flags byte (R79): only `B_INDEP` depends on the payload length. -/
theorem flagsByte_params_fields (n : Nat) :
    flgVersion (flagsByte params n) = 0b01 ∧ flgBIndep (flagsByte params n) = indep n ∧
      flgBChecksum (flagsByte params n) = false ∧ flgCSize (flagsByte params n) = true ∧
      flgCChecksum (flagsByte params n) = true ∧ flgReserved (flagsByte params n) = false ∧
      flgDictId (flagsByte params n) = false := by
  rw [flagsByte_params]; cases indep n <;> decide

theorem bdOfClass_params_other_bits (k : SizeClass) : params.bdOfClass k &&& 0x8F = 0 := by cases k <;> rfl

theorem classCode_params_eq_bdClassCode (k : SizeClass) :
    params.classCode k = (bdClassCode (params.bdOfClass k)).setWidth 64 := by cases k <;> rfl

theorem classCode_params_classOf (n : Nat) :
    params.classCode (classOf n) = if n < 64000 then 4 else if n < 256000 then 5 else if n < 1000000 then 6 else 7 := by
  rw [classOf]; split_ifs <;> rfl

/-- Settles O23: bytes 4 and 5 of the header in `FRAM` are the flags byte and the class's descriptor byte. -/
theorem encodedFlagsAnnounceTheFixedLayout : Obligations.EncodedFlagsAnnounceTheFixedLayout := by
  intro s
  have hfields := flagsByte_params_fields s.arg1.toNat
  rw [indep_eq] at hfields
  exact ⟨_, _, _, exec_hdrEnc s, encodeHeader_flagsByte params s.arg0 s.arg1.toNat,
    encodeHeader_descriptorByte params s.arg0 s.arg1.toNat, bdOfClass_params_other_bits _,
    classCode_params_eq_bdClassCode _, classCode_params_classOf _, hfields⟩

end Sys2Proof.Machine
end

section
/-! The length of the container that `FRAME_ENC` writes (spec/30_encoding.md R89; spec/43_frame_ops.md R154). -/

namespace Sys2Proof.Machine

/-- Settles O43: `RES0` holds the block count untruncated, since the container holds four bytes for each block and fits
a capacity below 2^64. -/
theorem containerLength : Obligations.ContainerLength := by
  intro p s hp hok
  obtain ⟨c, hc, hpayl, hfram⟩ := frameEnc_success hok
  have hlen := assembleFrame_length p s.mem.cont c
  have hblocks :
      (BitVec.ofNat 64 (assembleFrame p s.mem.cont c).blocks).toNat = (assembleFrame p s.mem.cont c).blocks := by
    obtain ⟨-, -, hcap⟩ := wf_caps hp
    exact Nat.mod_eq_of_lt (by omega)
  rw [← hblocks] at hlen
  rw [commandWith_frameEnc_ok hc hpayl hfram]
  exact hlen

end Sys2Proof.Machine
end

section
/-! `BSC_SEL` and `HDR_ENC`: the class of a length and the header's bytes (spec/40_header_codec.md R100 to R105). -/

namespace Sys2Proof.Machine

theorem commandWith_bscSel (p : Params) (s : State) :
    commandWith p .bscSel s = State.succeed
      { s with res0 := p.classCode (classOf s.arg0.toNat)
               res1 := BitVec.ofNat 64 (classMax (classOf s.arg0.toNat)) } := rfl

theorem commandWith_hdrEnc_ok {p : Params} (hcap : 15 ≤ p.capFram) (s : State) :
    commandWith p .hdrEnc s = State.succeed
      { s.setBuf .fram (encodeHeader p s.arg0 s.arg1.toNat) with
          res0 := p.classCode (classOf s.arg1.toNat)
          res1 := BitVec.ofNat 64 (classMax (classOf s.arg1.toNat)) } := by
  rcases runHdrEnc_cases p s with ⟨-, hrun⟩ | ⟨hlt, -⟩
  · rw [commandWith, runCommand, hrun, State.complete_ok]
  · exact absurd hcap (Nat.not_le.2 hlt)

theorem commandWith_hdrEnc_error {p : Params} (hcap : p.capFram < 15) (s : State) :
    commandWith p .hdrEnc s = s.raise .capacityExceeded := by
  rcases runHdrEnc_cases p s with ⟨hle, -⟩ | ⟨-, hrun⟩
  · exact absurd hle (Nat.not_le.2 hcap)
  · rw [commandWith, runCommand, hrun, State.complete_error]

/-- The class maximum as a register holds it (R9, R100). -/
theorem ofNat_classMax_classOf (n : Nat) :
    BitVec.ofNat 64 (classMax (classOf n)) =
      if n < 64000 then 64000 else if n < 256000 then 256000 else if n < 1000000 then 1000000 else 4000000 := by
  rw [classOf]; split_ifs <;> rfl

/-- The flags byte with the independence bit decided by the payload length alone (R102). -/
theorem flagsByte_eq (p : Params) (n : Nat) :
    flagsByte p n = p.flgBase ||| ((if n < 4000000 then 1 else 0) : Byte) <<< p.flgIndepBit := by
  rw [flagsByte, indep_eq]
  by_cases h : n < 4000000
  · rw [decide_eq_true h, if_pos h]; rfl
  · rw [decide_eq_false h, if_neg h]; rfl

/-- Settles O21: the class is `ClassOf` of `ARG0`, and its maximum is read off class by class. -/
theorem bscSelSelectsClass : Obligations.BscSelSelectsClass := by
  intro s
  rw [exec_eq, commandWith_bscSel, ofNat_classMax_classOf]
  rfl

/-- Settles O22: `FRAM` is `EncodeHeader` of the operands, whose flags byte and class maximum have a closed form. -/
theorem hdrEncWritesHeader : Obligations.HdrEncWritesHeader := by
  refine ⟨fun s => ?_, fun p s hcap => commandWith_hdrEnc_error hcap s⟩
  rw [exec_hdrEnc, ofNat_classMax_classOf, encodeHeader_eq, flagsByte_eq]
  rfl

end Sys2Proof.Machine
end

section
/-! `HDR_DEC` check by check, what it reads of an encoded header, and a header with one byte changed
(spec/40_header_codec.md R106 to R111). -/

namespace Sys2Proof.Machine

/-! ### The checks of `DecodeHeader`, in order (R106) -/

theorem unle32_slice_eq_magic_iff {c : ByteSeq} (h : 4 ≤ c.length) :
    unle32 (slice c 0 4) = magic ↔ c.take 4 = le32 magic := by
  have hlen : (slice c 0 4).length = 4 := slice_length h
  constructor
  · intro hm
    rw [← hm, le32_unle32 hlen]; rfl
  · intro hm
    rw [show slice c 0 4 = le32 magic from hm, unle32_le32]

theorem decodeHeader_truncated_magic {c : ByteSeq} (p : Params) (h : c.length < 4) :
    decodeHeader p c = .error .truncatedInput := if_pos h

theorem decodeHeader_magicMismatch {c : ByteSeq} (p : Params) (h : 4 ≤ c.length) (hm : c.take 4 ≠ le32 magic) :
    decodeHeader p c = .error .magicMismatch := by
  rw [decodeHeader, if_neg (Nat.not_lt.2 h), if_pos (mt (unle32_slice_eq_magic_iff h).1 hm)]

theorem length_of_take_eq_magic {c : ByteSeq} (hm : c.take 4 = le32 magic) : 4 ≤ c.length := by
  have hlen := congrArg List.length hm
  rw [List.length_take, le32_length] at hlen
  omega

theorem decodeHeader_truncated_header {c : ByteSeq} (p : Params) (hm : c.take 4 = le32 magic) (h : c.length < 15) :
    decodeHeader p c = .error .truncatedInput := by
  have h4 := length_of_take_eq_magic hm
  rw [decodeHeader, if_neg (Nat.not_lt.2 h4), if_neg (not_not.2 ((unle32_slice_eq_magic_iff h4).2 hm)), hdrLen,
    if_pos h]

/-- With the magic number and 15 bytes present, the checksum byte decides. -/
theorem decodeHeader_mismatch_iff {p : Params} {c : ByteSeq} (hm : c.take 4 = le32 magic) (h : 15 ≤ c.length) :
    decodeHeader p c = .error .headerChecksumMismatch ↔ headerChecksum p (slice c 4 10) ≠ byteAt c 14 := by
  have h4 := length_of_take_eq_magic hm
  rw [decodeHeader, if_neg (Nat.not_lt.2 h4), if_neg (not_not.2 ((unle32_slice_eq_magic_iff h4).2 hm)), hdrLen,
    if_neg (Nat.not_lt.2 h)]
  split_ifs with hc <;> simp [hc]

/-- What a header that decodes has passed. -/
theorem decodeHeader_ok_checks {p : Params} {c : ByteSeq} {h : FrameHeader} (hd : decodeHeader p c = .ok h) :
    15 ≤ c.length ∧ c.take 4 = le32 magic ∧ headerChecksum p (slice c 4 10) = byteAt c 14 := by
  have hlen := decodeHeader_length hd
  have hm : c.take 4 = le32 magic := by
    by_contra hne
    rw [decodeHeader_magicMismatch p (by omega) hne] at hd
    cases hd
  refine ⟨hlen, hm, ?_⟩
  by_contra hne
  rw [(decodeHeader_mismatch_iff hm hlen).2 hne] at hd
  cases hd

/-- Settles O24: on the whole layout the checksum byte decides; each earlier check ends the command when it fails. -/
theorem hdrDecDecodesOrReportsFirstError : Obligations.HdrDecDecodesOrReportsFirstError := by
  intro s
  simp only [exec_eq, ← magic_bytes]
  refine ⟨fun flg bd hc csize post hf => ?_, fun h => ?_, fun h hm => ?_, fun hm h => ?_⟩
  · have hd := decodeHeader_layout params flg bd hc csize post
    rw [← List.append_assoc, descriptorBytes, ← hf] at hd
    refine ⟨fun heq => ?_, fun hne => ?_⟩
    · rw [commandWith_hdrDec_ok (hd.trans (if_pos heq))]; rfl
    · rw [commandWith_hdrDec_error (hd.trans (if_neg hne))]; rfl
  · rw [commandWith_hdrDec_error (decodeHeader_truncated_magic params h)]; rfl
  · rw [commandWith_hdrDec_error (decodeHeader_magicMismatch params h hm)]; rfl
  · rw [commandWith_hdrDec_error (decodeHeader_truncated_header params hm h)]; rfl

/-! ### What `HDR_ENC` wrote (R110) -/

theorem decodeHeader_encodeHeader (p : Params) (l : Word64) (n : Nat) (post : ByteSeq) :
    decodeHeader p (encodeHeader p l n ++ post) = .ok
      { flg := flagsByte p n, bd := p.bdOfClass (classOf n), csize := l
        hc := headerChecksum p (slice (encodeHeader p l n) 4 10) } := by
  rw [encodeHeader_eq, decodeHeader_headerBytes]; rfl

/-- Settles O25: `FRAM` is an encoded header with bytes behind it, and `DecodeHeader` returns the encoder's fields. -/
theorem headerDecodesToWhatWasEncoded : Obligations.HeaderDecodesToWhatWasEncoded := by
  intro p s post hcap
  simp only [commandWith_hdrEnc_ok hcap]
  rw [commandWith_hdrDec_ok (decodeHeader_encodeHeader p s.arg0 s.arg1.toNat post)]
  exact ⟨State.succeed_errFlag _, rfl, rfl, rfl, rfl, rfl⟩

/-! ### One byte changed (R111) -/

theorem take_set_ne {f : ByteSeq} {n i : Nat} {b : Byte} (hi : i < n) (hlen : n ≤ f.length) (hne : f[i]? ≠ some b) :
    (f.set i b).take n ≠ f.take n := by
  intro heq
  have hget : ((f.set i b).take n)[i]? = (f.take n)[i]? := by rw [heq]
  rw [List.getElem?_take_of_lt hi, List.getElem?_take_of_lt hi, List.getElem?_set_self (hi.trans_le hlen)] at hget
  exact hne hget.symm

theorem slice_set_of_le {f : ByteSeq} {a n i : Nat} (b : Byte) (hi : a + n ≤ i) :
    slice (f.set i b) a n = slice f a n := by
  rw [slice, List.drop_set, if_neg (by omega), List.take_set_of_le (by omega), slice]

theorem byteAt_set_self {f : ByteSeq} {i : Nat} (b : Byte) (hi : i < f.length) : byteAt (f.set i b) i = b := by
  simp [byteAt, hi]

theorem byteAt_set_ne {f : ByteSeq} {i j : Nat} (b : Byte) (h : i ≠ j) : byteAt (f.set i b) j = byteAt f j := by
  simp [byteAt, h]

theorem getElem?_eq_some_byteAt {f : ByteSeq} {i : Nat} (hi : i < f.length) : f[i]? = some (byteAt f i) := by
  simp [byteAt, hi]

/-- A changed byte of the magic number is found by the first comparison. -/
theorem decodeHeader_set_magic {p : Params} {f : ByteSeq} {d : FrameHeader} (hd : decodeHeader p f = .ok d) {i : Nat}
    {b : Byte} (hi : i < 4) (hne : f[i]? ≠ some b) : decodeHeader p (f.set i b) = .error .magicMismatch := by
  obtain ⟨hlen, hm, -⟩ := decodeHeader_ok_checks hd
  refine decodeHeader_magicMismatch p (by rw [List.length_set]; omega) ?_
  rw [← hm]
  exact take_set_ne hi (by omega) hne

/-- A changed byte behind the magic number leaves the checksum comparison to decide. -/
theorem decodeHeader_set_mismatch_iff {p : Params} {f : ByteSeq} {d : FrameHeader} (hd : decodeHeader p f = .ok d)
    {i : Nat} (b : Byte) (hi : 4 ≤ i) : decodeHeader p (f.set i b) = .error .headerChecksumMismatch ↔
      headerChecksum p (slice (f.set i b) 4 10) ≠ byteAt (f.set i b) 14 := by
  obtain ⟨hlen, hm, -⟩ := decodeHeader_ok_checks hd
  exact decodeHeader_mismatch_iff (by rw [List.take_set_of_le hi, hm]) (by rwa [List.length_set])

/-- The checksum byte itself: the ten bytes it is compared with are as they were. -/
theorem decodeHeader_set_checksum {p : Params} {f : ByteSeq} {d : FrameHeader} (hd : decodeHeader p f = .ok d)
    {b : Byte} (hne : f[14]? ≠ some b) : decodeHeader p (f.set 14 b) = .error .headerChecksumMismatch := by
  obtain ⟨hlen, -, hsum⟩ := decodeHeader_ok_checks hd
  rw [decodeHeader_set_mismatch_iff hd b (by decide), slice_set_of_le b (by decide), byteAt_set_self b hlen, hsum]
  exact fun heq => hne ((getElem?_eq_some_byteAt hlen).trans (congrArg some heq))

/-- A hashed byte: the checksum byte is as it was, and it is that of the old ten bytes. -/
theorem decodeHeader_set_hashed_iff {p : Params} {f : ByteSeq} {d : FrameHeader} (hd : decodeHeader p f = .ok d)
    {i : Nat} (b : Byte) (hi : 4 ≤ i) (hi' : i < 14) :
    decodeHeader p (f.set i b) = .error .headerChecksumMismatch ↔
      headerChecksum p (slice (f.set i b) 4 10) ≠ headerChecksum p (slice f 4 10) := by
  obtain ⟨-, -, hsum⟩ := decodeHeader_ok_checks hd
  rw [decodeHeader_set_mismatch_iff hd b hi, byteAt_set_ne b hi'.ne, hsum]

/-- `ERR` tells the error kind apart from every other and from a success (R171). -/
theorem commandWith_hdrDec_err_iff (p : Params) (s : State) (k : ErrKind) :
    (commandWith p .hdrDec s).err = k.code ↔ decodeHeader p s.mem.fram = .error k := by
  cases hd : decodeHeader p s.mem.fram with
  | ok h =>
    rw [commandWith_hdrDec_ok hd, State.succeed_err]
    exact ⟨fun h0 => absurd h0.symm k.code_ne_zero, nofun⟩
  | error k' =>
    rw [commandWith_hdrDec_error hd, State.raise_err, Except.error.injEq]
    exact ⟨ErrKind.code_injective, congrArg _⟩

/-- Settles O26: each range of bytes feeds one check of `DecodeHeader` and leaves the earlier ones as they were. -/
theorem headerTamperIsDetected : Obligations.HeaderTamperIsDetected := by
  intro p s i b hok hne
  obtain ⟨d, hd⟩ := hdrDec_success hok
  refine ⟨fun hi => ?_, ?_, fun hi hi' => ?_⟩
  · exact commandWith_hdrDec_error (k := .magicMismatch) (decodeHeader_set_magic hd hi hne)
  · rintro rfl
    exact commandWith_hdrDec_error (k := .headerChecksumMismatch) (decodeHeader_set_checksum hd hne)
  · exact (commandWith_hdrDec_err_iff p _ .headerChecksumMismatch).trans (decodeHeader_set_hashed_iff hd b hi hi')

end Sys2Proof.Machine
end

section
/-! The block size field as bytes and as the operands of `BSF_ENC` give it (spec/41_block_codec.md R120 to R123). -/

namespace Sys2Proof.Machine

/-! ### `DecodeBSF` of four bytes (R122) -/

theorem unle32_four_toNat (b0 b1 b2 b3 : Byte) :
    (unle32 [b0, b1, b2, b3]).toNat = b0.toNat + 2 ^ 8 * b1.toNat + 2 ^ 16 * b2.toNat + 2 ^ 24 * b3.toNat := by
  have h0 := b0.isLt; have h1 := b1.isLt; have h2 := b2.isLt; have h3 := b3.isLt
  simp only [unle32, unle, BitVec.toNat_ofNat]
  omega

theorem and_0x7F_toNat (b : Byte) : (b &&& 0x7F).toNat = b.toNat % 2 ^ 7 :=
  (BitVec.toNat_and b 0x7F).trans (Nat.and_two_pow_sub_one_eq_mod b.toNat 7)

theorem getLsbD_seven (b : Byte) : b.getLsbD 7 = decide (2 ^ 7 ≤ b.toNat) := BitVec.msb_eq_decide b

/-- Clearing the top bit of the last byte leaves the length, and that bit is the flag. -/
theorem decodeBsf_four (b0 b1 b2 b3 : Byte) :
    decodeBsf [b0, b1, b2, b3] = (((b3 &&& 0x7F) ++ b2 ++ b1 ++ b0).toNat, b3.getLsbD 7) := by
  have h0 := b0.isLt; have h1 := b1.isLt; have h2 := b2.isLt; have h3 := b3.isLt
  apply Prod.ext
  · rw [decodeBsf_fst, ← unle32_four, unle32_four_toNat, unle32_four_toNat, and_0x7F_toNat]
    omega
  · rw [decodeBsf_snd, unle32_four_toNat, getLsbD_seven, decide_eq_decide]
    omega

/-- Settles O30: the bytes of the field, then the two inverses. -/
theorem sizeFieldRoundTrip : Obligations.SizeFieldRoundTrip :=
  ⟨decodeBsf_four, fun _ u hn => decodeBsf_encodeBsf hn u, fun f hf => ⟨decodeBsf_lt f, encodeBsf_decodeBsf hf⟩⟩

/-! ### `BSF_ENC` (R121) -/

theorem flagOperand_toNat {v : Word64} (h : v.toNat < 2) : (flagOperand v).toNat = v.toNat := by
  rcases zero_or_one h with rfl | rfl <;> rfl

/-- The size-field word in a register is the operands put together (R120). -/
theorem bsfWord_setWidth {n u : Word64} (hn : n.toNat < 2 ^ 31) (hu : u.toNat < 2) :
    (bsfWord n.toNat (flagOperand u)).setWidth 64 = n ||| u <<< 31 := by
  have hshift : (u <<< 31).toNat = u.toNat <<< 31 := by
    rw [BitVec.toNat_shiftLeft, Nat.shiftLeft_eq]; omega
  apply BitVec.eq_of_toNat_eq
  rw [BitVec.toNat_setWidth, bsfWord_toNat hn, flagOperand_toNat hu, BitVec.toNat_or, hshift, Nat.or_comm,
    ← Nat.shiftLeft_add_eq_or_of_lt hn, Nat.shiftLeft_eq]
  omega

theorem encodeBsf_operands {n u : Word64} (hn : n.toNat < 2 ^ 31) (hu : u.toNat < 2) :
    encodeBsf n.toNat (flagOperand u) = le32 ((n ||| u <<< 31).setWidth 32) := by
  rw [encodeBsf, ← bsfWord_setWidth hn hu, BitVec.setWidth_setWidth_of_le _ (by decide), BitVec.setWidth_eq]

theorem commandWith_bsfEnc_ok {p : Params} {s : State} (hn : s.arg0.toNat < 2 ^ 31) (hu : s.arg1.toNat < 2)
    (hcap : 4 ≤ p.capFram) : commandWith p .bsfEnc s = State.succeed
      { s.setBuf .fram (le32 ((s.arg0 ||| s.arg1 <<< 31).setWidth 32)) with res0 := s.arg0 ||| s.arg1 <<< 31 } := by
  rw [← encodeBsf_operands hn hu, ← bsfWord_setWidth hn hu]
  rcases runBsfEnc_cases p s with ⟨-, -, -, hrun⟩ | ⟨-, -, hlt, -⟩ | ⟨hbad, -⟩
  · rw [commandWith, runCommand, hrun, State.complete_ok]
  · exact absurd hcap (Nat.not_le.2 hlt)
  · simp [lengthOperandOk_iff.2 hn, flagOperandOk_iff.2 hu] at hbad

theorem commandWith_bsfEnc_badOperand (p : Params) {s : State} (h : 2 ^ 31 ≤ s.arg0.toNat ∨ 2 ≤ s.arg1.toNat) :
    commandWith p .bsfEnc s = s.raise .badOperand := by
  have hbad (hn : lengthOperandOk s.arg0 = true) (hu : flagOperandOk s.arg1 = true) : False :=
    h.elim (Nat.not_le.2 (lengthOperandOk_iff.1 hn)) (Nat.not_le.2 (flagOperandOk_iff.1 hu))
  rcases runBsfEnc_cases p s with ⟨hn, hu, -⟩ | ⟨hn, hu, -⟩ | ⟨-, hrun⟩
  · exact (hbad hn hu).elim
  · exact (hbad hn hu).elim
  · rw [commandWith, runCommand, hrun, State.complete_error]

theorem commandWith_bsfEnc_over {p : Params} {s : State} (hn : s.arg0.toNat < 2 ^ 31) (hu : s.arg1.toNat < 2)
    (hcap : p.capFram < 4) : commandWith p .bsfEnc s = s.raise .capacityExceeded := by
  rcases runBsfEnc_cases p s with ⟨-, -, hle, -⟩ | ⟨-, -, -, hrun⟩ | ⟨hbad, -⟩
  · exact absurd hle (Nat.not_le.2 hcap)
  · rw [commandWith, runCommand, hrun, State.complete_error]
  · simp [lengthOperandOk_iff.2 hn, flagOperandOk_iff.2 hu] at hbad

/-- Settles O28: the operand checks come first, then the capacity of `FRAM` decides. -/
theorem bsfEncEncodesSizeField : Obligations.BsfEncEncodesSizeField := by
  refine ⟨fun s hn hu => ?_, fun p s h => commandWith_bsfEnc_badOperand p h,
    fun p s hn hu hcap => commandWith_bsfEnc_over hn hu hcap⟩
  rw [exec_eq, commandWith_bsfEnc_ok hn hu (by decide)]
  rfl

/-! ### `BSF_DEC` (R123) -/

theorem commandWith_bsfDec_ok (p : Params) {s : State} {pre f post : ByteSeq} (hf : f.length = 4)
    (hfram : s.mem.fram = pre ++ f ++ post) (hoff : s.off.toNat = pre.length) :
    commandWith p .bsfDec s = State.succeed
      { s with res0 := BitVec.ofNat 64 (decodeBsf f).1, res1 := boolResult (decodeBsf f).2 } := by
  have hslice : slice s.mem.fram s.off.toNat 4 = f := by
    rw [hfram, hoff, List.append_assoc, slice_append rfl hf]
  rcases runBsfDec_cases p s with ⟨-, hrun⟩ | ⟨hshort, -⟩
  · rw [commandWith, runCommand, hrun, State.complete_ok, hslice]
  · rw [hfram, hoff] at hshort
    simp only [List.length_append] at hshort
    omega

theorem commandWith_bsfDec_truncated (p : Params) {s : State} (h : s.mem.fram.length < s.off.toNat + 4) :
    commandWith p .bsfDec s = s.raise .truncatedInput := by
  rcases runBsfDec_cases p s with ⟨hle, -⟩ | ⟨-, hrun⟩
  · exact absurd h (Nat.not_lt.2 hle)
  · rw [commandWith, runCommand, hrun, State.complete_error]

theorem boolResult_getLsbD_seven (b : Byte) : boolResult (b.getLsbD 7) = (b >>> 7).setWidth 64 := by
  have hb := b.isLt
  apply BitVec.eq_of_toNat_eq
  rw [boolResult_eq, getLsbD_seven, BitVec.toNat_setWidth, BitVec.toNat_ushiftRight, Nat.shiftRight_eq_div_pow]
  by_cases h : 2 ^ 7 ≤ b.toNat
  · rw [decide_eq_true h]; change 1 = b.toNat / 2 ^ 7 % 2 ^ 64; omega
  · rw [decide_eq_false h]; change 0 = b.toNat / 2 ^ 7 % 2 ^ 64; omega

/-- Settles O29: the four bytes at `OFF` are the slice the command decodes; their absence is its one error. -/
theorem bsfDecDecodesSizeField : Obligations.BsfDecDecodesSizeField := by
  intro s
  simp only [exec_eq]
  refine ⟨fun pre post b0 b1 b2 b3 hfram hoff => ?_, fun h => ?_⟩
  · rw [commandWith_bsfDec_ok params rfl hfram hoff, decodeBsf_four, boolResult_getLsbD_seven, BitVec.ofNat_toNat]
    rfl
  · rw [commandWith_bsfDec_truncated params h]
    rfl

end Sys2Proof.Machine
end

section
/-! The ranges of a payload, the records laid out over them, and `BLK_WRITE` (spec/41_block_codec.md R124 to R127). -/

namespace Sys2Proof.Machine

/-! ### The split (R124, R125) -/

theorem split_getElem?_eq_some {pol : SplitPolicy} {n m i : Nat} {r : Nat × Nat} (hm : 1 ≤ m)
    (h : (split pol n m)[i]? = some r) : r = (i * m, min m (n - i * m)) := by
  obtain ⟨hi, rfl⟩ := List.getElem?_eq_some_iff.1 h
  exact split_getElem pol hm hi

/-- Settles O31: the ranges by their index, and their number policy by policy. -/
theorem splitListsTheRanges : Obligations.SplitListsTheRanges := by
  intro pol n m hm
  refine ⟨fun i r => split_getElem?_eq_some hm, ?_⟩
  cases pol with
  | ceil => exact split_ceil_length hm
  | reference =>
    rw [split_reference_length]
    rcases Nat.eq_zero_or_pos n with rfl | hn
    · simp
    · simp [hn, hn.ne']

/-- The slices of the ranges, put together, are the payload. -/
theorem flatMap_slice_split (pol : SplitPolicy) (payload : ByteSeq) {m : Nat} (hm : 1 ≤ m) :
    (split pol payload.length m).flatMap (fun r => slice payload r.1 r.2) = payload := by
  have h := payloadOf_blocksOf pol hm false payload
  rwa [payloadOf, blocksOf, List.flatMap_map] at h

/-- Settles O32: the blocks of a payload concatenate to it, and each range has its bounds. -/
theorem splitCoversThePayload : Obligations.SplitCoversThePayload := by
  intro pol payload m hm
  refine ⟨flatMap_slice_split pol payload hm, fun r hr => ?_, fun hpol r hr => ?_⟩
  · obtain ⟨hend, hmax, -⟩ := split_mem_bound hm hr
    exact ⟨hend, hmax⟩
  · obtain ⟨-, -, hpos⟩ := split_mem_bound hm hr
    exact hpos hpol

/-! ### The layout (R126) -/

theorem writeBlocks_nil (pol : SplitPolicy) (m : Nat) (u : Bool) : writeBlocks pol [] m u = endMark := by
  rw [writeBlocks, List.length_nil, split_zero, List.flatMap_nil, List.nil_append]

theorem writeBlocks_gt (pol : SplitPolicy) {payload : ByteSeq} {m : Nat} (hm : 1 ≤ m) (h : m < payload.length)
    (u : Bool) :
    writeBlocks pol payload m u = encodeBsf m u ++ payload.take m ++ writeBlocks pol (payload.drop m) m u := by
  have htake : (payload.take m).length = m := List.length_take_of_le h.le
  rw [writeBlocks_eq pol payload hm, writeBlocks_eq pol _ hm, blocksOf_gt pol hm h, records_cons]
  simp only [htake, List.append_assoc]

theorem writeBlocks_le (pol : SplitPolicy) {payload : ByteSeq} {m : Nat} (hm : 1 ≤ m) (h0 : payload ≠ [])
    (h : payload.length ≤ m) (u : Bool) :
    writeBlocks pol payload m u =
      if payload.length = m ∧ pol = .reference then encodeBsf m u ++ payload ++ encodeBsf 0 u ++ endMark
      else encodeBsf payload.length u ++ payload ++ endMark := by
  rw [writeBlocks_eq pol payload hm, blocksOf_le pol h0 h, endMark_eq_sentinel]
  split_ifs with hfull
  · simp [hfull.1]
  · simp

/-- Settles O33: the layout follows the payload's length against the maximum. -/
theorem writeBlocksLaysOutRecords : Obligations.WriteBlocksLaysOutRecords := by
  intro pol payload m u hm
  refine ⟨writeBlocks_length pol payload hm u, ?_⟩
  by_cases h0 : payload = []
  · rw [if_pos h0, h0, writeBlocks_nil]; rfl
  rw [if_neg h0]
  by_cases hgt : m < payload.length
  · rw [if_pos hgt, writeBlocks_gt pol hm hgt]
  · rw [if_neg hgt, writeBlocks_le pol hm h0 (Nat.not_lt.1 hgt)]; rfl

/-! ### `BLK_WRITE` (R127) -/

theorem commandWith_blkWrite_badOperand (p : Params) {s : State}
    (h : s.arg0.toNat = 0 ∨ 2 ^ 31 ≤ s.arg0.toNat ∨ 2 ≤ s.arg1.toNat) :
    commandWith p .blkWrite s = s.raise .badOperand := by
  have hbad (hm : maxBlockOperandOk s.arg0 = true) (hu : flagOperandOk s.arg1 = true) : False := by
    rw [maxBlockOperandOk_iff] at hm
    rw [flagOperandOk_iff] at hu
    omega
  rcases runBlkWrite_cases p s with ⟨hm, hu, -⟩ | ⟨hm, hu, -⟩ | ⟨-, hrun⟩
  · exact (hbad hm hu).elim
  · exact (hbad hm hu).elim
  · rw [commandWith, runCommand, hrun, State.complete_error]

section Operands
variable {p : Params} {s : State} (hm : 1 ≤ s.arg0.toNat) (hm' : s.arg0.toNat < 2 ^ 31) (hu : s.arg1.toNat < 2)
include hm hm' hu

theorem commandWith_blkWrite_ok
    (hcap : (writeBlocks p.splitPolicy s.mem.payl s.arg0.toNat (s.arg1 == 1)).length ≤ p.capFram) :
    commandWith p .blkWrite s = State.succeed
      { s.setBuf .fram (writeBlocks p.splitPolicy s.mem.payl s.arg0.toNat (s.arg1 == 1)) with
          res0 := BitVec.ofNat 64 (split p.splitPolicy s.mem.payl.length s.arg0.toNat).length } := by
  rw [← flagOperand_eq hu] at hcap ⊢
  rcases runBlkWrite_cases p s with ⟨-, -, -, hrun⟩ | ⟨-, -, hlt, -⟩ | ⟨hbad, -⟩
  · rw [commandWith, runCommand, hrun, State.complete_ok]
  · exact absurd hcap (Nat.not_le.2 hlt)
  · simp [maxBlockOperandOk_iff.2 ⟨hm, hm'⟩, flagOperandOk_iff.2 hu] at hbad

theorem commandWith_blkWrite_over
    (hcap : p.capFram < (writeBlocks p.splitPolicy s.mem.payl s.arg0.toNat (s.arg1 == 1)).length) :
    commandWith p .blkWrite s = s.raise .capacityExceeded := by
  rw [← flagOperand_eq hu] at hcap
  rcases runBlkWrite_cases p s with ⟨-, -, hle, -⟩ | ⟨-, -, -, hrun⟩ | ⟨hbad, -⟩
  · exact absurd hle (Nat.not_le.2 hcap)
  · rw [commandWith, runCommand, hrun, State.complete_error]
  · simp [maxBlockOperandOk_iff.2 ⟨hm, hm'⟩, flagOperandOk_iff.2 hu] at hbad

end Operands

theorem writeBlocks_ceil_length (payload : ByteSeq) {m : Nat} (hm : 1 ≤ m) (u : Bool) :
    (writeBlocks .ceil payload m u).length = payload.length + 4 * ((payload.length + m - 1) / m) + 4 := by
  rw [writeBlocks_length .ceil payload hm, split_ceil_length hm]

/-- Settles O34: the operand checks come first, then the length of the records against `CAP_FRAM` decides. -/
theorem blkWriteWritesRecords : Obligations.BlkWriteWritesRecords := by
  refine ⟨fun s hm hm' hu hfit => ?_, fun p s =>
    ⟨commandWith_blkWrite_badOperand p, fun hm hm' hu =>
      ⟨commandWith_blkWrite_ok hm hm' hu, commandWith_blkWrite_over hm hm' hu⟩⟩⟩
  have hlen := writeBlocks_ceil_length s.mem.payl hm (s.arg1 == 1)
  have hcap : (writeBlocks .ceil s.mem.payl s.arg0.toNat (s.arg1 == 1)).length ≤ params.capFram := by
    rw [hlen]; exact Nat.le_sub_one_of_lt hfit
  refine ⟨?_, hlen⟩
  rw [exec_eq, commandWith_blkWrite_ok hm hm' hu hcap]
  simp only [params, split_ceil_length hm]
  rfl

end Sys2Proof.Machine
end

section
/-! `BLK_READ` on runs of records, the bound on its turns, and the reader after the writer (spec/41_block_codec.md R128 to
R134). -/

namespace Sys2Proof.Machine

/-! ### Runs of records (R128 to R131) -/

theorem readBlocks_run {c pre post : ByteSeq} {o : Nat} {recs : List (ByteSeq × Bool)} {u : Bool}
    (hlegal : RecordsLegal recs) (hc : c = pre ++ records recs ++ sentinel u ++ post) (ho : o = pre.length) :
    readBlocks c o = .ok
      { payload := payloadOf recs, allUnc := allUncompressed recs,
        newOffset := pre.length + (records recs).length + 4, count := recs.length } := by
  subst hc ho
  rw [List.append_assoc, List.append_assoc]
  exact readBlocks_records hlegal u pre post rfl

/-- The reader fails where no run of records starts. -/
theorem readBlocks_truncated {c : ByteSeq} {o : Nat}
    (h : ¬ ∃ (pre post : ByteSeq) (recs : List (ByteSeq × Bool)) (u : Bool), RecordsLegal recs ∧
      c = pre ++ records recs ++ sentinel u ++ post ∧ o = pre.length) :
    readBlocks c o = .error .truncatedInput := by
  cases hr : readBlocks c o with
  | error k => rw [readBlocks_error hr]
  | ok r =>
    obtain ⟨recs, u, pre, post, hlegal, hpre, hc, -⟩ := readBlocks_ok hr
    exact absurd ⟨pre, post, recs, u, hlegal, by simpa using hc, hpre.symm⟩ h

theorem commandWith_blkRead_over {p : Params} {s : State} {r : BlockRun}
    (hr : readBlocks s.mem.fram s.off.toNat = .ok r) (hf : p.capPayl < r.payload.length) :
    commandWith p .blkRead s = s.raise .capacityExceeded := by
  have hnot : ¬ fits p .payl r.payload = true := fun h => Nat.not_lt.2 (fits_iff.1 h) hf
  simp only [commandWith, runCommand, runBlkRead, hr]
  rw [if_neg hnot, State.complete_error]

/-- A payload read out of `FRAM` is no longer than `FRAM`, so the default `CAP_PAYL` holds it. -/
theorem payload_fits_params {s : State} {r : BlockRun} (hr : readBlocks s.mem.fram s.off.toNat = .ok r)
    (hm : s.mem.wf params = true) : r.payload.length ≤ params.capPayl := by
  obtain ⟨-, hpayl, -⟩ := readBlocks_bounds hr
  obtain ⟨-, -, hfram⟩ := Memory.wf_lengths hm
  exact hpayl.trans hfram

/-- Settles O35: the reader answers exactly on runs of records; what it answers then fits `PAYL` or does not. -/
theorem blkReadReadsRunOfRecords : Obligations.BlkReadReadsRunOfRecords := by
  refine ⟨fun s pre post recs u hlegal hfram hoff hm => ?_, fun p s hnone => ?_,
    fun p s pre post recs u hlegal hfram hoff hcap => ?_⟩
  · have hrun := readBlocks_run hlegal hfram hoff
    rw [exec_eq, commandWith_blkRead_ok hrun (payload_fits_params hrun hm), boolResult_eq]
    rfl
  · exact commandWith_blkRead_error (readBlocks_truncated hnone)
  · exact commandWith_blkRead_over (readBlocks_run hlegal hfram hoff) hcap

/-- Settles O36: a record takes at least five bytes, so the turns of R132 already outnumber the records of any run. -/
theorem readerNeedsNoMoreTurns : Obligations.ReaderNeedsNoMoreTurns := fun c o _ hturns =>
  readBlocksLoop_turns hturns (Nat.lt_succ_self (c.length / 5)) o [] true 0

/-! ### The reader after the writer (R133) -/

theorem writeBlocks_reference_eq_ceil {payload : ByteSeq} {m : Nat} (h : payload.length = 0 ∨ payload.length % m ≠ 0)
    (u : Bool) : writeBlocks .reference payload m u = writeBlocks .ceil payload m u := by
  rw [writeBlocks, writeBlocks, split_reference_eq_ceil h]

/-- What comes out under `ceil`, in the terms of R133. -/
theorem readBlocks_writeBlocks_ceil {m : Nat} (hm : 1 ≤ m) (hm' : m < 2 ^ 31) (u : Bool) (payload pre post : ByteSeq) :
    readBlocks (pre ++ writeBlocks .ceil payload m u ++ post) pre.length = .ok
      { payload := payload, allUnc := if payload = [] then true else u,
        newOffset := pre.length + (writeBlocks .ceil payload m u).length,
        count := (payload.length + m - 1) / m } := by
  have hflag : (u || payload.isEmpty) = if payload = [] then true else u := by
    cases payload <;> simp
  rw [List.append_assoc, readBlocks_writeBlocks hm hm' u payload pre post rfl, hflag, split_ceil_length hm]

/-- Settles O37: under `reference` a nonzero multiple of the maximum ends in a record that is itself a sentinel; any other
payload is written as under `ceil`. -/
theorem readBlocksInvertsWriteBlocks : Obligations.ReadBlocksInvertsWriteBlocks := by
  intro pol payload pre post m u hm hm'
  cases pol with
  | ceil => simpa using readBlocks_writeBlocks_ceil hm hm' u payload pre post
  | reference =>
    by_cases hmul : payload ≠ [] ∧ payload.length % m = 0
    · obtain ⟨hne, hmod⟩ := hmul
      have hcount : payload.length / m = (payload.length + m - 1) / m := by simp [ceil_div hm, hmod]
      rw [List.append_assoc, readBlocks_writeBlocks_reference hm hm' u hne hmod pre post rfl, hcount]
      simp [hne, hmod]
    · have halike : payload.length = 0 ∨ payload.length % m ≠ 0 := by
        rwa [not_and_or, not_not, ← List.length_eq_zero_iff] at hmul
      rw [writeBlocks_reference_eq_ceil halike, readBlocks_writeBlocks_ceil hm hm' u payload pre post]
      simp [hmul]

end Sys2Proof.Machine
end

section
/-! The stored content checksum: `CSUM_GEN`, `CSUM_CHK`, and the one after the other (spec/42_checksum.md R141 to R144). -/

namespace Sys2Proof.Machine

/-! ### `CSUM_GEN` (R142) -/

theorem commandWith_csumGen_ok {p : Params} (s : State) (hcap : 4 ≤ p.capFram) :
    commandWith p .csumGen s = State.succeed
      { s.setBuf .fram (le32 (p.hash32 s.mem.cont)) with res0 := (p.hash32 s.mem.cont).setWidth 64 } := by
  rcases runCsumGen_cases p s with ⟨-, hrun⟩ | ⟨hlt, -⟩
  · rw [commandWith, runCommand, hrun, State.complete_ok, contentChecksum]
  · exact absurd hcap (Nat.not_le.2 hlt)

theorem commandWith_csumGen_over {p : Params} (s : State) (hcap : p.capFram < 4) :
    commandWith p .csumGen s = s.raise .capacityExceeded := by
  rcases runCsumGen_cases p s with ⟨hle, -⟩ | ⟨-, hrun⟩
  · exact absurd hle (Nat.not_le.2 hcap)
  · rw [commandWith, runCommand, hrun, State.complete_error]

/-- Settles O38: the capacity of `FRAM` is the only thing that decides. -/
theorem csumGenWritesContentHash : Obligations.CsumGenWritesContentHash := by
  refine ⟨fun s => ?_, fun p s hcap => commandWith_csumGen_over s hcap⟩
  rw [exec_eq, commandWith_csumGen_ok s (by decide)]
  rfl

/-! ### `CSUM_CHK` (R143) -/

section Layout
variable {p : Params} {s : State} {pre f post : ByteSeq} (hf : f.length = 4)
  (hfram : s.mem.fram = pre ++ f ++ post) (hoff : s.off.toNat = pre.length)
include hf hfram hoff

/-- What the check answers on the four bytes `f` at `OFF`. -/
theorem checkContent_at_off :
    checkContent p s.mem.fram s.off.toNat s.mem.cont =
      if p.hash32 s.mem.cont = unle32 f then .ok (p.hash32 s.mem.cont) else .error .contentChecksumMismatch := by
  rw [hfram, hoff, List.append_assoc]
  exact checkContent_layout p pre f post s.mem.cont hf rfl

theorem commandWith_csumChk_eq (h : p.hash32 s.mem.cont = unle32 f) :
    commandWith p .csumChk s = State.succeed { s with res0 := (p.hash32 s.mem.cont).setWidth 64 } :=
  commandWith_csumChk_ok (by rw [checkContent_at_off hf hfram hoff, if_pos h])

theorem commandWith_csumChk_ne (h : p.hash32 s.mem.cont ≠ unle32 f) :
    commandWith p .csumChk s = s.raise .contentChecksumMismatch :=
  commandWith_csumChk_error (by rw [checkContent_at_off hf hfram hoff, if_neg h])

end Layout

theorem commandWith_csumChk_truncated (p : Params) {s : State} (h : s.mem.fram.length < s.off.toNat + 4) :
    commandWith p .csumChk s = s.raise .truncatedInput :=
  commandWith_csumChk_error (by rw [checkContent, if_pos h])

/-- Settles O39: the four bytes at `OFF`, read as one word, are the hash or are not; their absence comes first. -/
theorem csumChkComparesStoredHash : Obligations.CsumChkComparesStoredHash := by
  intro s
  simp only [exec_eq]
  refine ⟨fun pre post b0 b1 b2 b3 hfram hoff => ?_, fun h => ?_⟩
  · rw [← unle32_four]
    refine ⟨fun heq => ?_, fun hne => ?_⟩
    · rw [commandWith_csumChk_eq (p := params) rfl hfram hoff heq]
      rfl
    · rw [commandWith_csumChk_ne (p := params) rfl hfram hoff hne]
      rfl
  · rw [commandWith_csumChk_truncated params h]
    rfl

/-! ### `CSUM_CHK` after `CSUM_GEN` (R144) -/

/-- A stored hash with one of its four bytes changed is the encoding of another word. -/
theorem ne_unle32_le32_set (w : Word32) {i : Nat} {b : Byte} (hi : i < 4) (hne : (le32 w)[i]? ≠ some b) :
    w ≠ unle32 ((le32 w).set i b) := fun h =>
  unle32_set_ne (le32_length w) hi hne (h.symm.trans (unle32_le32 w).symm)

/-- Settles O40: `UNLE32` is injective on four bytes, so only those `CSUM_GEN` wrote read as the hash. -/
theorem csumChkAcceptsExactlyWhatCsumGenWrote : Obligations.CsumChkAcceptsExactlyWhatCsumGenWrote := by
  intro p s hcap t
  have ht : t = State.succeed
      { s.setBuf .fram (le32 (p.hash32 s.mem.cont)) with res0 := (p.hash32 s.mem.cont).setWidth 64 } :=
    commandWith_csumGen_ok s hcap
  have hcont : t.mem.cont = s.mem.cont := by rw [ht]; rfl
  have hfram : t.mem.fram = le32 (p.hash32 t.mem.cont) := by rw [hcont, ht]; rfl
  refine ⟨?_, fun i b hi hne => ?_⟩
  · rw [commandWith_csumChk_eq (p := p) (s := { t with off := 0 }) (pre := []) (post := [])
      (le32_length (p.hash32 t.mem.cont)) (by simpa using hfram) rfl (unle32_le32 _).symm]
    exact State.succeed_errFlag _
  · have hchanged : p.hash32 t.mem.cont ≠ unle32 (t.mem.fram.set i b) := by
      rw [Memory.byte, Memory.buf, hfram] at hne
      rw [hfram]
      exact ne_unle32_le32_set _ hi hne
    have hlen : (t.mem.fram.set i b).length = 4 := by rw [List.length_set, hfram, le32_length]
    rw [commandWith_csumChk_ne (p := p) (s := { t with off := 0, mem := { t.mem with fram := t.mem.fram.set i b } })
      (pre := []) (post := []) hlen (by simp) rfl hchanged]
    rfl

end Sys2Proof.Machine
end

section
/-! `FRAME_ENC` by the compressor's answer and the capacities (spec/43_frame_ops.md R150, R152 to R154). -/

namespace Sys2Proof.Machine

theorem commandWith_frameEnc_compressionFailed {p : Params} {s : State} (hc : p.compress s.mem.cont = none) :
    commandWith p .frameEnc s = s.raise .compressionFailed := by
  rcases runFrameEnc_cases p s with ⟨c, hsome, -⟩ | ⟨-, hrun⟩
  · cases hc.symm.trans hsome
  · rw [commandWith, runCommand, hrun, State.complete_error]

theorem commandWith_frameEnc_over {p : Params} {s : State} {c : ByteSeq} (hc : p.compress s.mem.cont = some c)
    (hover : p.capPayl < (assembleFrame p s.mem.cont c).payload.length ∨
      p.capFram < (assembleFrame p s.mem.cont c).container.length) :
    commandWith p .frameEnc s = s.raise .capacityExceeded := by
  rcases runFrameEnc_cases p s with ⟨c', hc', ⟨hfits, -⟩ | ⟨-, hrun⟩⟩ | ⟨hnone, -⟩
  · cases hc.symm.trans hc'
    rw [Bool.and_eq_true, fits_iff, fits_iff] at hfits
    obtain ⟨hpayl, hfram⟩ := hfits
    exact absurd hover (not_or.2 ⟨Nat.not_lt.2 hpayl, Nat.not_lt.2 hfram⟩)
  · rw [commandWith, runCommand, hrun, State.complete_error]
  · cases hc.symm.trans hnone

/-- Settles O42: the compressor's answer decides first, then the two capacities. -/
theorem frameEncFailsOnlyWithCompressorOrCapacity : Obligations.FrameEncFailsOnlyWithCompressorOrCapacity := by
  refine fun p s => ⟨commandWith_frameEnc_compressionFailed, fun c hc =>
    ⟨fun hpayl hfram => ?_, commandWith_frameEnc_over hc⟩⟩
  rw [commandWith_frameEnc_ok hc hpayl hfram, boolResult_eq]
  rfl

/-! ### At the default parameters (R154) -/

theorem classMax_classOf (n : Nat) :
    classMax (classOf n) =
      if n < 64000 then 64000 else if n < 256000 then 256000 else if n < 1000000 then 1000000 else 4000000 := by
  rw [classOf]; split_ifs <;> rfl

theorem choosePayload_eq (x c : ByteSeq) :
    choosePayload x c = (if decide (x.length < c.length) then x else c, decide (x.length < c.length)) := by
  by_cases h : x.length < c.length
  · rw [choosePayload_stored h]; simp [h]
  · rw [choosePayload_candidate h]; simp [h]

/-- The assembled frame with the class maximum and the block count in closed form. -/
theorem assembleFrame_params (x c : ByteSeq) :
    assembleFrame params x c =
      let stored := decide (x.length < c.length)
      let pl := if stored then x else c
      let m := if pl.length < 64000 then 64000 else if pl.length < 256000 then 256000
        else if pl.length < 1000000 then 1000000 else 4000000
      { payload := pl
        stored := stored
        blocks := (pl.length + m - 1) / m
        container := encodeHeader params (BitVec.ofNat 64 x.length) pl.length ++ writeBlocks .ceil pl m stored ++
          le32 (Config.hash32 x) } := by
  simp only [assembleFrame, choosePayload_eq, ← classMax_classOf]
  rw [show params.splitPolicy = .ceil from rfl, split_ceil_length (classMax_bounds _).1]
  rfl

/-- The container's length decides whether it fits (R89). -/
theorem commandWith_params_frameEnc {s : State} {c : ByteSeq} {e : EncodedFrame}
    (hc : params.compress s.mem.cont = some c) (he : assembleFrame params s.mem.cont c = e) :
    commandWith params .frameEnc s =
      if e.payload.length < 2 ^ 64 ∧ e.payload.length + 4 * e.blocks + 23 < 2 ^ 64 then
        { s with
          mem := { s.mem with payl := e.payload, fram := e.container }
          res0 := BitVec.ofNat 64 e.blocks
          res1 := if e.stored then 1 else 0
          status := 0x01
          err := 0x00 }
      else { s with status := 0x03, err := 0x09 } := by
  have hcapPayl : params.capPayl = 2 ^ 64 - 1 := rfl
  have hcapFram : params.capFram = 2 ^ 64 - 1 := rfl
  obtain ⟨-, hanswer⟩ := frameEncFailsOnlyWithCompressorOrCapacity params s
  obtain ⟨hfits, hover⟩ := hanswer c hc
  rw [assembleFrame_length, he] at hfits hover
  by_cases hlt : e.payload.length < 2 ^ 64 ∧ e.payload.length + 4 * e.blocks + 23 < 2 ^ 64
  · rw [if_pos hlt]
    exact hfits (by omega) (by omega)
  · rw [if_neg hlt]
    exact hover (by omega)

/-- Settles O41: by cases on the compressor's answer, the frame assembled from it in closed form. -/
theorem frameEncBuildsContainer : Obligations.FrameEncBuildsContainer := by
  intro s
  rw [exec_eq]
  cases hc : Config.compress s.mem.cont with
  | none => rw [commandWith_frameEnc_compressionFailed (p := params) hc]; rfl
  | some c => rw [commandWith_params_frameEnc hc (assembleFrame_params _ _)]

end Sys2Proof.Machine
end

section
/-! `DecodeFrame` and `FRAME_DEC` on a header that decodes, a run of records and a sentinel, by what follows the sentinel
(spec/43_frame_ops.md R155 to R157). -/

namespace Sys2Proof.Machine

/-! ### The steps of `DecodeFrame` (R155) -/

theorem decodeFrame_recoverContent_error {p : Params} {f : ByteSeq} {h : FrameHeader} {r : BlockRun} {k : ErrKind}
    (hh : decodeHeader p f = .ok h) (hr : readBlocks f 15 = .ok r) (hy : recoverContent p r h.csize = .error k) :
    decodeFrame p f = .error k := by
  simp [decodeFrame, hdrLen, hh, hr, hy]

theorem decodeFrame_checkContent_error {p : Params} {f : ByteSeq} {h : FrameHeader} {r : BlockRun} {y : ByteSeq}
    {k : ErrKind} (hh : decodeHeader p f = .ok h) (hr : readBlocks f 15 = .ok r)
    (hy : recoverContent p r h.csize = .ok y) (hw : checkContent p f r.newOffset y = .error k) :
    decodeFrame p f = .error k := by
  simp [decodeFrame, hdrLen, hh, hr, hy, hw]

theorem recoverContent_stored (p : Params) {r : BlockRun} (n : Word64) (h : r.allUnc = true) :
    recoverContent p r n = .ok r.payload := by
  rw [recoverContent, if_pos h]

theorem recoverContent_answer {p : Params} {r : BlockRun} {n : Word64} {y : ByteSeq} (h : r.allUnc = false)
    (hd : p.decompress r.payload r.payload.length n.toNat = some y) (hy : y.length = n.toNat) :
    recoverContent p r n = .ok y := by
  simp [recoverContent, h, hd, hy]

theorem recoverContent_no_answer {p : Params} {r : BlockRun} {n : Word64} (h : r.allUnc = false)
    (hd : ∀ y, p.decompress r.payload r.payload.length n.toNat = some y → y.length ≠ n.toNat) :
    recoverContent p r n = .error .decompressionFailed := by
  cases hy : p.decompress r.payload r.payload.length n.toNat with
  | none => simp [recoverContent, h, hy]
  | some y => simp [recoverContent, h, hy, hd y hy]

theorem checkContent_truncated (p : Params) {c : ByteSeq} {o : Nat} (y : ByteSeq) (h : c.length < o + 4) :
    checkContent p c o y = .error .truncatedInput := if_pos h

theorem checkContent_mismatch {p : Params} {c : ByteSeq} {o : Nat} {y : ByteSeq} (h : o + 4 ≤ c.length)
    (hne : slice c o 4 ≠ le32 (p.hash32 y)) : checkContent p c o y = .error .contentChecksumMismatch := by
  rw [checkContent, if_neg (Nat.not_lt.2 h), if_pos]
  intro heq
  exact hne (by rw [heq, le32_unle32 (slice_length h)])

theorem commandWith_frameDec_over {p : Params} {s : State} {d : DecodedFrame} (hd : decodeFrame p s.mem.fram = .ok d)
    (hover : p.capPayl < d.run.payload.length ∨ p.capCont < d.content.length) :
    commandWith p .frameDec s = s.raise .capacityExceeded := by
  rcases runFrameDec_cases p s with ⟨d', hd', ⟨hfits, -⟩ | ⟨-, hrun⟩⟩ | ⟨k, hk, -⟩
  · cases hd.symm.trans hd'
    rw [Bool.and_eq_true, fits_iff, fits_iff] at hfits
    obtain ⟨hpayl, hcont⟩ := hfits
    exact absurd hover (not_or.2 ⟨Nat.not_lt.2 hpayl, Nat.not_lt.2 hcont⟩)
  · rw [commandWith, runCommand, hrun, State.complete_error]
  · cases hd.symm.trans hk

/-! ### A frame up to its sentinel -/

/-- A container's bytes before the content checksum: header, records, sentinel (R76, R84, R88). -/
def frameBody (p : Params) (flg bd : Byte) (csize : Word64) (recs : List (ByteSeq × Bool)) (u : Bool) : ByteSeq :=
  headerBytes p flg bd csize ++ records recs ++ sentinel u

/-- What `DecodeHeader` returns on a body. -/
def frameBodyHeader (p : Params) (flg bd : Byte) (csize : Word64) : FrameHeader :=
  { flg := flg, bd := bd, csize := csize, hc := headerChecksum p (descriptorBytes flg bd csize) }

/-- What `ReadBlocks` returns on a body. -/
def frameBodyRun (recs : List (ByteSeq × Bool)) : BlockRun :=
  { payload := payloadOf recs, allUnc := allUncompressed recs, newOffset := (records recs).length + 19
    count := recs.length }

theorem headerBytes_length (p : Params) (flg bd : Byte) (csize : Word64) : (headerBytes p flg bd csize).length = 15 := rfl

@[simp] theorem frameBody_length (p : Params) (flg bd : Byte) (csize : Word64) (recs : List (ByteSeq × Bool)) (u : Bool) :
    (frameBody p flg bd csize recs u).length = (records recs).length + 19 := by
  simp only [frameBody, List.length_append, headerBytes_length, sentinel_length]
  omega

theorem decodeHeader_frameBody (p : Params) (flg bd : Byte) (csize : Word64) (recs : List (ByteSeq × Bool)) (u : Bool)
    (rest : ByteSeq) :
    decodeHeader p (frameBody p flg bd csize recs u ++ rest) = .ok (frameBodyHeader p flg bd csize) := by
  rw [frameBody, List.append_assoc, List.append_assoc, decodeHeader_headerBytes, frameBodyHeader]

theorem readBlocks_frameBody {recs : List (ByteSeq × Bool)} (hlegal : RecordsLegal recs) (p : Params) (flg bd : Byte)
    (csize : Word64) (u : Bool) (rest : ByteSeq) :
    readBlocks (frameBody p flg bd csize recs u ++ rest) 15 = .ok (frameBodyRun recs) := by
  have hread := readBlocks_run hlegal (u := u) (post := rest) rfl (headerBytes_length p flg bd csize).symm
  have hoff : 15 + (records recs).length + 4 = (records recs).length + 19 := by omega
  rwa [headerBytes_length, hoff] at hread

/-! ### `FRAME_DEC` by the bytes after the sentinel -/

section Body
variable {p : Params} {s : State} {flg bd : Byte} {csize : Word64} {recs : List (ByteSeq × Bool)} {u : Bool}
  {rest y : ByteSeq} (hlegal : RecordsLegal recs) (hfram : s.mem.fram = frameBody p flg bd csize recs u ++ rest)
include hlegal hfram

theorem commandWith_frameDec_body_not_recovered
    (hy : recoverContent p (frameBodyRun recs) csize = .error .decompressionFailed) :
    commandWith p .frameDec s = s.raise .decompressionFailed :=
  commandWith_frameDec_error (hfram ▸ decodeFrame_recoverContent_error (decodeHeader_frameBody ..)
    (readBlocks_frameBody hlegal ..) hy)

variable (hy : recoverContent p (frameBodyRun recs) csize = .ok y)
include hy

theorem commandWith_frameDec_body_check_error {k : ErrKind}
    (hw : checkContent p s.mem.fram ((records recs).length + 19) y = .error k) :
    commandWith p .frameDec s = s.raise k :=
  commandWith_frameDec_error (decodeFrame_checkContent_error (hfram ▸ decodeHeader_frameBody ..)
    (hfram ▸ readBlocks_frameBody hlegal ..) hy hw)

theorem commandWith_frameDec_body_truncated (h : rest.length < 4) :
    commandWith p .frameDec s = s.raise .truncatedInput := by
  refine commandWith_frameDec_body_check_error hlegal hfram hy (checkContent_truncated p y ?_)
  rw [hfram, List.length_append, frameBody_length]
  omega

theorem commandWith_frameDec_body_mismatch (h : 4 ≤ rest.length) (hne : rest.take 4 ≠ le32 (p.hash32 y)) :
    commandWith p .frameDec s = s.raise .contentChecksumMismatch := by
  have hslice : slice s.mem.fram ((records recs).length + 19) 4 = rest.take 4 := by
    rw [hfram, slice, ← frameBody_length p flg bd csize recs u, List.drop_left]
  refine commandWith_frameDec_body_check_error hlegal hfram hy (checkContent_mismatch ?_ (hslice ▸ hne))
  rw [hfram, List.length_append, frameBody_length]
  omega

variable {post : ByteSeq} (hrest : rest = le32 (p.hash32 y) ++ post)
include hrest

theorem decodeFrame_body :
    decodeFrame p s.mem.fram = .ok
      { header := frameBodyHeader p flg bd csize, run := frameBodyRun recs, content := y
        endOffset := (records recs).length + 23 } := by
  subst hrest
  rw [hfram]
  exact decodeFrame_of_parts (decodeHeader_frameBody ..) (readBlocks_frameBody hlegal ..) hy
    (checkContent_match p _ post y (frameBody_length ..))

theorem commandWith_frameDec_body_ok (hpayl : (payloadOf recs).length ≤ p.capPayl) (hcont : y.length ≤ p.capCont) :
    commandWith p .frameDec s = State.succeed
      { ((s.setHeader (frameBodyHeader p flg bd csize)).setBuf .payl (payloadOf recs)).setBuf .cont y with
          res0 := BitVec.ofNat 64 recs.length, res1 := if allUncompressed recs then 1 else 0
          off := BitVec.ofNat 64 ((records recs).length + 23) } := by
  rw [commandWith_frameDec_ok (decodeFrame_body hlegal hfram hy hrest) hpayl hcont, boolResult_eq]
  rfl

theorem commandWith_frameDec_body_over (hover : p.capPayl < (payloadOf recs).length ∨ p.capCont < y.length) :
    commandWith p .frameDec s = s.raise .capacityExceeded :=
  commandWith_frameDec_over (decodeFrame_body hlegal hfram hy hrest) hover

end Body

/-- The body written out, as the statements about `FRAME_DEC` have it. -/
theorem frameBody_eq (p : Params) (flg bd : Byte) (csize : Word64) (recs : List (ByteSeq × Bool)) (u : Bool) :
    frameBody p flg bd csize recs u = [0x04, 0x22, 0x4D, 0x18] ++ (flg :: bd :: le64 csize) ++
      [(p.hash32 (flg :: bd :: le64 csize)).extractLsb' 8 8] ++ records recs ++ sentinel u := by
  rw [frameBody, headerBytes, magic_bytes]; rfl

theorem recoverContent_frameBodyRun_stored (p : Params) {recs : List (ByteSeq × Bool)} (csize : Word64)
    (hunc : allUncompressed recs = true) :
    recoverContent p (frameBodyRun recs) csize = .ok (payloadOf recs) := recoverContent_stored p csize hunc

/-- A decoded payload, and with it a stored content, is no longer than `FRAM`. -/
theorem payloadOf_length_le_of_fram {p : Params} {s : State} {flg bd : Byte} {csize : Word64}
    {recs : List (ByteSeq × Bool)} {u : Bool} {rest : ByteSeq} (hmem : s.mem.wf p = true)
    (hfram : s.mem.fram = frameBody p flg bd csize recs u ++ rest) : (payloadOf recs).length ≤ p.capFram := by
  obtain ⟨-, -, hcap⟩ := Memory.wf_lengths hmem
  rw [hfram, List.length_append, frameBody_length, length_records] at hcap
  omega

/-- Settles O44: the records are a stored run, whose payload is the content. -/
theorem frameDecRecoversStoredFrame : Obligations.FrameDecRecoversStoredFrame := by
  intro s flg bd csize recs u post hlegal hunc hmem hfram
  have hbody : s.mem.fram = frameBody params flg bd csize recs u ++ (le32 (params.hash32 (payloadOf recs)) ++ post) := by
    rw [frameBody_eq, hfram, List.append_assoc]; rfl
  have hlen := payloadOf_length_le_of_fram hmem hbody
  rw [exec_eq, commandWith_frameDec_body_ok hlegal hbody (recoverContent_frameBodyRun_stored params csize hunc) rfl
    hlen hlen, hunc]
  rfl

/-- Settles O45: the content is the payload, and the bytes after the sentinel decide. -/
theorem frameDecChecksStoredFrame : Obligations.FrameDecChecksStoredFrame := by
  intro p s flg bd csize recs u rest hlegal hunc hfram
  rw [← frameBody_eq] at hfram
  have hy := recoverContent_frameBodyRun_stored p csize hunc
  exact ⟨commandWith_frameDec_body_truncated hlegal hfram hy, commandWith_frameDec_body_mismatch hlegal hfram hy,
    fun post hrest hover => commandWith_frameDec_body_over hlegal hfram hy hrest hover⟩

/-- Settles O46: without an answer of the content size nothing after the sentinel is read; with one, those bytes decide. -/
theorem frameDecDecompressesPayload : Obligations.FrameDecDecompressesPayload := by
  intro p s flg bd csize recs u rest hlegal hunc hfram
  rw [← frameBody_eq] at hfram
  refine ⟨fun y hd hlen => ?_, fun hd =>
    commandWith_frameDec_body_not_recovered hlegal hfram (recoverContent_no_answer hunc hd)⟩
  have hy : recoverContent p (frameBodyRun recs) csize = .ok y := recoverContent_answer hunc hd hlen
  refine ⟨fun post hrest hpayl hcont => ?_, fun post hrest hover => commandWith_frameDec_body_over hlegal hfram hy hrest hover,
    commandWith_frameDec_body_truncated hlegal hfram hy, commandWith_frameDec_body_mismatch hlegal hfram hy⟩
  rw [commandWith_frameDec_body_ok hlegal hfram hy hrest hpayl hcont, hunc]
  rfl

end Sys2Proof.Machine
end

section
/-! `FRAME_DEC` of what `FRAME_ENC` wrote (spec/43_frame_ops.md R158, R159). -/

namespace Sys2Proof.Machine

/-- The records of the frame that `FRAME_ENC` assembles (R153). -/
def frameRecords (p : Params) (x c : ByteSeq) : List (ByteSeq × Bool) :=
  blocksOf p.splitPolicy (assembleFrame p x c).payload (classMax (classOf (assembleFrame p x c).payload.length))
    (assembleFrame p x c).stored

/-- The container's bytes before the content checksum. -/
def assembledBody (p : Params) (x c : ByteSeq) : ByteSeq :=
  frameBody p (flagsByte p (assembleFrame p x c).payload.length)
    (p.bdOfClass (classOf (assembleFrame p x c).payload.length)) (BitVec.ofNat 64 x.length) (frameRecords p x c) false

theorem assembleFrame_container (p : Params) (x c : ByteSeq) :
    (assembleFrame p x c).container = assembledBody p x c ++ le32 (p.hash32 x) := by
  rw [assembledBody, frameBody, frameRecords, List.append_assoc (headerBytes ..),
    ← writeBlocks_eq _ _ (classMax_bounds _).1, ← encodeHeader_eq]
  rfl

theorem payloadOf_frameRecords (p : Params) (x c : ByteSeq) :
    payloadOf (frameRecords p x c) = (assembleFrame p x c).payload :=
  payloadOf_blocksOf _ (classMax_bounds _).1 _ _

theorem allUncompressed_frameRecords (p : Params) (x c : ByteSeq) :
    allUncompressed (frameRecords p x c) = ((assembleFrame p x c).stored || (assembleFrame p x c).payload.isEmpty) :=
  allUncompressed_blocksOf _ (classMax_bounds _).1 _ _

theorem frameRecords_legal {p : Params} (hpol : p.splitPolicy = .ceil) (x c : ByteSeq) :
    RecordsLegal (frameRecords p x c) := by
  rw [frameRecords, hpol]
  exact blocksOf_legal (classMax_bounds _).1 (classMax_bounds _).2 _ _

theorem assembleFrame_of_longer (p : Params) {x c : ByteSeq} (h : x.length < c.length) :
    (assembleFrame p x c).payload = x ∧ (assembleFrame p x c).stored = true := by
  simp only [assembleFrame, choosePayload_stored h, and_self]

theorem assembleFrame_of_not_longer (p : Params) {x c : ByteSeq} (h : ¬ x.length < c.length) :
    (assembleFrame p x c).payload = c ∧ (assembleFrame p x c).stored = false := by
  simp only [assembleFrame, choosePayload_candidate h, and_self]

/-- The payload of a frame whose records all count as uncompressed is taken for the content (R155 step 3). -/
theorem recoverContent_frameRecords_uncompressed {p : Params} {x c : ByteSeq} (hpayl : (assembleFrame p x c).payload = x)
    (hunc : ((assembleFrame p x c).stored || (assembleFrame p x c).payload.isEmpty) = true) (csize : Word64) :
    recoverContent p (frameBodyRun (frameRecords p x c)) csize = .ok x := by
  have hrec := recoverContent_frameBodyRun_stored p csize ((allUncompressed_frameRecords p x c).trans hunc)
  rwa [payloadOf_frameRecords, hpayl] at hrec

/-- A codec that is compatible on a content gives it back from the frame's records (R155 step 3, R158). -/
theorem recoverContent_frameRecords {p : Params} {x c : ByteSeq} (hx : x.length < 2 ^ 64)
    (hcompat : x.length < c.length ∨ (c ≠ [] ∧ p.decompress c c.length x.length = some x) ∨ (c = [] ∧ x = [])) :
    recoverContent p (frameBodyRun (frameRecords p x c)) (BitVec.ofNat 64 x.length) = .ok x := by
  by_cases hlonger : x.length < c.length
  · obtain ⟨hpayl, hstored⟩ := assembleFrame_of_longer p hlonger
    exact recoverContent_frameRecords_uncompressed hpayl (Bool.or_eq_true_iff.2 (.inl hstored)) _
  · obtain ⟨hpayl, hstored⟩ := assembleFrame_of_not_longer p hlonger
    rcases hcompat with hlt | ⟨hne, hd⟩ | ⟨rfl, rfl⟩
    · exact absurd hlt hlonger
    · have hsize : (BitVec.ofNat 64 x.length).toNat = x.length := Nat.mod_eq_of_lt hx
      have hunc : allUncompressed (frameRecords p x c) = false := by
        rw [allUncompressed_frameRecords, hpayl, hstored, Bool.false_or, List.isEmpty_eq_false_iff]
        exact hne
      refine recoverContent_answer hunc ?_ hsize.symm
      rw [hsize, frameBodyRun, payloadOf_frameRecords, hpayl]
      exact hd
    · exact recoverContent_frameRecords_uncompressed hpayl (by rw [hpayl, List.isEmpty_nil, Bool.or_true]) _

theorem assembleFrame_container_length (p : Params) (x c : ByteSeq) :
    (assembleFrame p x c).container.length = (records (frameRecords p x c)).length + 23 := by
  rw [assembleFrame_container, List.length_append, assembledBody, frameBody_length, le32_length]

/-- What `FRAME_DEC` does on an assembled container, whatever stands behind it (R158). -/
theorem commandWith_frameDec_assembled {p : Params} {s : State} {x c post : ByteSeq} (hpol : p.splitPolicy = .ceil)
    (hfram : s.mem.fram = (assembleFrame p x c).container ++ post)
    (hx : recoverContent p (frameBodyRun (frameRecords p x c)) (BitVec.ofNat 64 x.length) = .ok x)
    (hpayl : (assembleFrame p x c).payload.length ≤ p.capPayl) (hcont : x.length ≤ p.capCont) :
    ∃ h : FrameHeader, h.csize = BitVec.ofNat 64 x.length ∧ commandWith p .frameDec s = State.succeed
      { ((s.setHeader h).setBuf .payl (assembleFrame p x c).payload).setBuf .cont x with
          res0 := BitVec.ofNat 64 (frameRecords p x c).length
          res1 := if allUncompressed (frameRecords p x c) then 1 else 0
          off := BitVec.ofNat 64 (assembleFrame p x c).container.length } := by
  rw [← payloadOf_frameRecords] at hpayl ⊢
  rw [assembleFrame_container, assembledBody, List.append_assoc] at hfram
  rw [assembleFrame_container_length]
  exact ⟨_, rfl, commandWith_frameDec_body_ok (frameRecords_legal hpol x c) hfram hx rfl hpayl hcont⟩

/-- Settles O49: the container is a body with the content's hash behind it, and the codec recovers the content. -/
theorem frameRoundTrip : Obligations.FrameRoundTrip := by
  intro p s u c post hwf hpol hmem hc hcompat hok hfram
  obtain ⟨c', hc', hpayl, hfits⟩ := frameEnc_success hok
  cases hc.symm.trans hc'
  obtain ⟨hcont, -, -⟩ := Memory.wf_lengths hmem
  obtain ⟨hcap, -, -⟩ := wf_caps hwf
  have hx : s.mem.cont.length < 2 ^ 64 := hcont.trans_lt hcap
  rw [commandWith_frameEnc_ok hc hpayl hfits] at hfram ⊢
  obtain ⟨h, hsize, hdec⟩ := commandWith_frameDec_assembled hpol hfram (recoverContent_frameRecords hx hcompat) hpayl hcont
  rw [hdec]
  refine ⟨State.succeed_errFlag _, rfl, rfl, ?_, rfl⟩
  exact (congrArg BitVec.toNat hsize).trans (Nat.mod_eq_of_lt hx)

/-- An assembled container by its parts: fifteen bytes of header, records, EndMark, the content's hash (R76, R153). -/
theorem assembleFrame_container_parts (p : Params) (x c : ByteSeq) :
    (assembleFrame p x c).container = (assembleFrame p x c).container.take 15 ++ records (frameRecords p x c) ++
      sentinel false ++ le32 (p.hash32 x) := by
  rw [assembleFrame_container]; rfl

/-- Settles O50: the one flag of the records is set, so the decompressor is not asked. -/
theorem fallbackStoresTheContent : Obligations.FallbackStoresTheContent := by
  intro p s c hwf hpol hmem hc hlonger hok
  obtain ⟨c', hc', hpayl, hfits⟩ := frameEnc_success hok
  cases hc.symm.trans hc'
  obtain ⟨hcont, -, -⟩ := Memory.wf_lengths hmem
  obtain ⟨hpayload, hstored⟩ := assembleFrame_of_longer p hlonger
  have hunc : allUncompressed (frameRecords p s.mem.cont c) = true := by
    rw [allUncompressed_frameRecords, hstored, Bool.true_or]
  have henc := commandWith_frameEnc_ok hc hpayl hfits
  have hfram : (commandWith p .frameEnc s).mem.fram = (assembleFrame p s.mem.cont c).container := by rw [henc]; rfl
  refine ⟨?_, ?_, ⟨frameRecords p s.mem.cont c, frameRecords_legal hpol _ _, List.all_eq_true.1 hunc,
    (payloadOf_frameRecords ..).trans hpayload, ?_⟩, fun d => ?_⟩
  · rw [henc]; exact congrArg boolResult hstored
  · rw [henc]; exact hpayload
  · rw [hfram]; exact assembleFrame_container_parts ..
  · have hrec := recoverContent_frameRecords_uncompressed (p := { p with decompress := d }) (c := c) hpayload
      (Bool.or_eq_true_iff.2 (.inl hstored)) (BitVec.ofNat 64 s.mem.cont.length)
    obtain ⟨h, -, hdec⟩ := commandWith_frameDec_assembled (p := { p with decompress := d }) (post := []) hpol
      (hfram.trans (List.append_nil _).symm) hrec hpayl hcont
    rw [hdec]
    exact ⟨State.succeed_errFlag _, rfl⟩

end Sys2Proof.Machine
end

section
/-! What `FRAME_DEC` makes of bytes behind the content checksum and of a changed checksum byte (spec/43_frame_ops.md R157,
R160). -/

namespace Sys2Proof.Machine

theorem decodeFrame_append {p : Params} {f : ByteSeq} {d : DecodedFrame} (h : decodeFrame p f = .ok d) (t : ByteSeq) :
    decodeFrame p (f ++ t) = .ok d := by
  obtain ⟨hhead, hread, hrec, hcheck, hend⟩ := decodeFrame_ok h
  rw [decodeFrame_of_parts (decodeHeader_append hhead t) (readBlocks_append hread t) hrec (checkContent_append hcheck t),
    ← hend]

/-- Settles O48: the longer container decodes to the same frame. -/
theorem trailingBytesAreNotRead : Obligations.TrailingBytesAreNotRead := by
  intro p s post hok
  obtain ⟨d, hd, hpayl, hcont⟩ := frameDec_success hok
  rw [commandWith_frameDec_ok hd hpayl hcont, commandWith_frameDec_ok (decodeFrame_append hd post) hpayl hcont]
  rfl

/-- The header, the records and the content are as they were; only the stored hash is another. -/
theorem decodeFrame_set_trailer {p : Params} {f : ByteSeq} {d : DecodedFrame} (h : decodeFrame p f = .ok d) {i : Nat}
    {b : Byte} (hlo : d.endOffset ≤ i + 4) (hhi : i < d.endOffset) (hne : f[i]? ≠ some b) :
    decodeFrame p (f.set i b) = .error .contentChecksumMismatch := by
  obtain ⟨-, -, hrec, -, hend⟩ := decodeFrame_ok h
  obtain ⟨body, post, rfl, hlen, -, hhead, hread⟩ := decodeFrame_layout h
  have hi : body.length ≤ i := by omega
  have hi4 : i - body.length < 4 := by omega
  rw [List.getElem?_append_right hi, List.getElem?_append_left hi4] at hne
  rw [List.set_append_right _ _ hi, List.set_append_left _ _ hi4]
  refine decodeFrame_checkContent_error (decodeHeader_append hhead _) (readBlocks_append hread _) hrec ?_
  rw [checkContent_layout p body _ post d.content (by rw [List.length_set, le32_length]) hlen,
    if_neg (ne_unle32_le32_set _ hi4 hne)]

/-- Settles O51: `OFF` is the end of the checksum untruncated, and the changed byte lies in it. -/
theorem trailerTamperIsDetected : Obligations.TrailerTamperIsDetected := by
  intro p s i b hwf hmem hok hlo hhi hne
  obtain ⟨d, hd, hpayl, hcont⟩ := frameDec_success hok
  have hoff : (commandWith p .frameDec s).off.toNat = d.endOffset := by
    have hle := decodeFrame_endOffset_le hd
    obtain ⟨-, -, hfram⟩ := Memory.wf_lengths hmem
    obtain ⟨-, -, hcap⟩ := wf_caps hwf
    rw [commandWith_frameDec_ok hd hpayl hcont]
    exact Nat.mod_eq_of_lt (by omega)
  rw [hoff] at hlo hhi
  rw [commandWith_frameDec_error (k := .contentChecksumMismatch) (decodeFrame_set_trailer hd hlo hhi hne)]
  rfl

end Sys2Proof.Machine
end

section
/-! The end of a command: what it leaves (spec/60_exceptions.md R176), that it does not depend on the end before it
(R178), which error kinds each command has (R171), the capacities as the last check (R175), and the head of the order
of checks of `FRAME_DEC` (R177). -/

namespace Sys2Proof.Machine

/-! ### Completion (R176) -/

/-- Settles O13: a commit is `State.succeed` of what the command wrote, or `State.raise` of the old state. -/
theorem failedCommandChangesOnlyStatusAndErr : Obligations.FailedCommandChangesOnlyStatusAndErr := by
  intro i s
  refine ⟨commandWith params i s, exec_eq i s, ?_⟩
  rcases commandWith_cases params i s with ⟨t, -, heq⟩ | ⟨k, heq⟩
  · exact .inl ⟨by rw [heq, State.succeed_status], by rw [heq, State.succeed_err]⟩
  · exact .inr ⟨k, heq⟩

/-! ### The earlier `STATUS` and `ERR` (R178) -/

/-- The state with other values in the two registers that report a command's end. -/
def State.withReport (s : State) (status err : Byte) : State := { s with status := status, err := err }

@[simp] theorem State.withReport_mem (s : State) (status err : Byte) : (s.withReport status err).mem = s.mem := rfl

@[simp] theorem State.withReport_off (s : State) (status err : Byte) : (s.withReport status err).off = s.off := rfl

/-- No command reads or writes the two registers in its own work. -/
theorem runCommand_withReport (p : Params) (i : Instr) (s : State) (status err : Byte) :
    runCommand p i (s.withReport status err) = (runCommand p i s).map (·.withReport status err) := by
  cases i with
  | bscSel => rfl
  | hdrEnc => simp only [runCommand, runHdrEnc, apply_ite (Except.map _)]; rfl
  | hdrDec =>
    simp only [runCommand, runHdrDec, State.withReport_mem]
    cases decodeHeader p s.mem.fram <;> rfl
  | bsfEnc => simp only [runCommand, runBsfEnc, apply_ite (Except.map _)]; rfl
  | bsfDec => simp only [runCommand, runBsfDec, apply_ite (Except.map _)]; rfl
  | blkWrite => simp only [runCommand, runBlkWrite, apply_ite (Except.map _)]; rfl
  | blkRead =>
    simp only [runCommand, runBlkRead, State.withReport_mem, State.withReport_off]
    cases readBlocks s.mem.fram s.off.toNat with
    | error k => rfl
    | ok r => simp only [apply_ite (Except.map _)]; rfl
  | csumGen => simp only [runCommand, runCsumGen, apply_ite (Except.map _)]; rfl
  | csumChk =>
    simp only [runCommand, runCsumChk, State.withReport_mem, State.withReport_off]
    cases checkContent p s.mem.fram s.off.toNat s.mem.cont <;> rfl
  | frameEnc =>
    simp only [runCommand, runFrameEnc, State.withReport_mem]
    cases encodeFrame p s.mem.cont with
    | error k => rfl
    | ok e => simp only [apply_ite (Except.map _)]; rfl
  | frameDec =>
    simp only [runCommand, runFrameDec, State.withReport_mem]
    cases decodeFrame p s.mem.fram with
    | error k => rfl
    | ok d => simp only [apply_ite (Except.map _)]; rfl

/-- A completion overwrites both registers, of a success as of a failure. -/
theorem State.complete_withReport (s : State) (r : Except ErrKind State) (status err : Byte) :
    (s.withReport status err).complete (r.map (·.withReport status err)) = s.complete r := by
  cases r <;> rfl

theorem commandWith_withReport (p : Params) (i : Instr) (s : State) (status err : Byte) :
    commandWith p i (s.withReport status err) = commandWith p i s := by
  rw [commandWith, runCommand_withReport, State.complete_withReport, commandWith]

/-- Settles O17: the two registers are no input of the work and are overwritten at its end. -/
theorem errorsAreNotSticky : Obligations.ErrorsAreNotSticky := by
  intro i s status err
  rw [exec_eq, exec_eq, ← commandWith_withReport params i s status err, State.withReport]

/-! ### Error kinds by command (R171) -/

/-- The error kinds of a command (R171, the column "raised by"). -/
def raisedKinds : Instr → List ErrKind
  | .bscSel => []
  | .hdrEnc | .csumGen => [.capacityExceeded]
  | .hdrDec => [.magicMismatch, .headerChecksumMismatch, .truncatedInput]
  | .bsfEnc | .blkWrite => [.badOperand, .capacityExceeded]
  | .bsfDec => [.truncatedInput]
  | .blkRead => [.truncatedInput, .capacityExceeded]
  | .csumChk => [.contentChecksumMismatch, .truncatedInput]
  | .frameEnc => [.compressionFailed, .capacityExceeded]
  | .frameDec => [.magicMismatch, .headerChecksumMismatch, .contentChecksumMismatch, .decompressionFailed,
      .truncatedInput, .capacityExceeded]

theorem runCommand_error_mem {p : Params} {i : Instr} {s : State} {k : ErrKind} (h : runCommand p i s = .error k) :
    k ∈ raisedKinds i := by
  cases i with
  | bscSel => cases h
  | hdrEnc =>
    rcases runHdrEnc_cases p s with ⟨-, hr⟩ | ⟨-, hr⟩ <;> cases hr.symm.trans h
    simp [raisedKinds]
  | hdrDec =>
    rcases runHdrDec_cases p s with ⟨d, -, hr⟩ | ⟨k', hd, hr⟩ <;> cases hr.symm.trans h
    rcases decodeHeader_error hd with rfl | rfl | rfl <;> simp [raisedKinds]
  | bsfEnc =>
    rcases runBsfEnc_cases p s with ⟨-, -, -, hr⟩ | ⟨-, -, -, hr⟩ | ⟨-, hr⟩ <;> cases hr.symm.trans h <;>
      simp [raisedKinds]
  | bsfDec =>
    rcases runBsfDec_cases p s with ⟨-, hr⟩ | ⟨-, hr⟩ <;> cases hr.symm.trans h
    simp [raisedKinds]
  | blkWrite =>
    rcases runBlkWrite_cases p s with ⟨-, -, -, hr⟩ | ⟨-, -, -, hr⟩ | ⟨-, hr⟩ <;> cases hr.symm.trans h <;>
      simp [raisedKinds]
  | blkRead =>
    rcases runBlkRead_cases p s with ⟨r, -, ⟨-, hr⟩ | ⟨-, hr⟩⟩ | ⟨-, hr⟩ <;> cases hr.symm.trans h <;>
      simp [raisedKinds]
  | csumGen =>
    rcases runCsumGen_cases p s with ⟨-, hr⟩ | ⟨-, hr⟩ <;> cases hr.symm.trans h
    simp [raisedKinds]
  | csumChk =>
    rcases runCsumChk_cases p s with ⟨w, -, hr⟩ | ⟨k', hc, hr⟩ <;> cases hr.symm.trans h
    rcases checkContent_error hc with ⟨rfl, -⟩ | ⟨rfl, -⟩ <;> simp [raisedKinds]
  | frameEnc =>
    rcases runFrameEnc_cases p s with ⟨c, -, ⟨-, hr⟩ | ⟨-, hr⟩⟩ | ⟨-, hr⟩ <;> cases hr.symm.trans h <;>
      simp [raisedKinds]
  | frameDec =>
    rcases runFrameDec_cases p s with ⟨d, -, ⟨-, hr⟩ | ⟨-, hr⟩⟩ | ⟨k', hd, hr⟩ <;> cases hr.symm.trans h
    · simp [raisedKinds]
    · rcases decodeFrame_error hd with rfl | rfl | rfl | rfl | rfl <;> simp [raisedKinds]

/-- Settles O14: the obligation's list holds the codes of `raisedKinds`, command by command. -/
theorem commandsRaiseOnlyTheirErrorKinds : Obligations.CommandsRaiseOnlyTheirErrorKinds := by
  intro p i s hfail
  rcases s.complete_cases (runCommand p i s) with ⟨t, -, -, hok⟩ | ⟨k, hrun, heq, -⟩
  · cases hok.symm.trans hfail
  · have hmem : k.code ∈ (raisedKinds i).map ErrKind.code := List.mem_map_of_mem (runCommand_error_mem hrun)
    rw [commandWith, heq, State.raise_err]
    cases i <;> exact hmem

/-! ### The capacities, checked last (R175) -/

/-- The parameters with other capacities. -/
def withCaps (p : Params) (cc cp cf : Nat) : Params := { p with capCont := cc, capPayl := cp, capFram := cf }

/-- What a command is about to write to buffers when it comes to look at the capacities, or the error kind that ends it
before (R177, each row up to `CapacityExceeded`). -/
def bufferResults (p : Params) (s : State) : Instr → Except ErrKind (List (BufName × ByteSeq))
  | .bscSel => .ok []
  | .hdrEnc => .ok [(.fram, encodeHeader p s.arg0 s.arg1.toNat)]
  | .hdrDec => (decodeHeader p s.mem.fram).map fun _ => []
  | .bsfEnc =>
    if lengthOperandOk s.arg0 && flagOperandOk s.arg1 then
      .ok [(.fram, encodeBsf s.arg0.toNat (flagOperand s.arg1))]
    else .error .badOperand
  | .bsfDec => if s.off.toNat + 4 ≤ s.mem.fram.length then .ok [] else .error .truncatedInput
  | .blkWrite =>
    if maxBlockOperandOk s.arg0 && flagOperandOk s.arg1 then
      .ok [(.fram, writeBlocks p.splitPolicy s.mem.payl s.arg0.toNat (flagOperand s.arg1))]
    else .error .badOperand
  | .blkRead => (readBlocks s.mem.fram s.off.toNat).map fun r => [(.payl, r.payload)]
  | .csumGen => .ok [(.fram, contentChecksum p s.mem.cont)]
  | .csumChk => (checkContent p s.mem.fram s.off.toNat s.mem.cont).map fun _ => []
  | .frameEnc => (encodeFrame p s.mem.cont).map fun e => [(.payl, e.payload), (.fram, e.container)]
  | .frameDec => (decodeFrame p s.mem.fram).map fun d => [(.payl, d.run.payload), (.cont, d.content)]

theorem bufferResults_withCaps (p : Params) (s : State) (i : Instr) (cc cp cf : Nat) :
    bufferResults (withCaps p cc cp cf) s i = bufferResults p s i := by
  cases i <;> rfl

/-- Every result fits its buffer (R33). -/
def allFit (p : Params) (outs : List (BufName × ByteSeq)) : Bool := outs.all fun out => fits p out.1 out.2

/-- The three ends of a command: a kind that the capacities have no part in, or results, which fit or do not. -/
inductive Ends (p : Params) (i : Instr) (s : State) : Prop
  | own {k : ErrKind} (hown : bufferResults p s i = .error k) (hne : k ≠ .capacityExceeded)
      (hrun : runCommand p i s = .error k)
  | fit {outs : List (BufName × ByteSeq)} {t : State} (hres : bufferResults p s i = .ok outs)
      (hfit : allFit p outs = true) (hrun : runCommand p i s = .ok t)
  | overflow {outs : List (BufName × ByteSeq)} (hres : bufferResults p s i = .ok outs)
      (hover : allFit p outs = false) (hrun : runCommand p i s = .error .capacityExceeded)

theorem allFit_singleton {p : Params} {b : BufName} {y : ByteSeq} : allFit p [(b, y)] = fits p b y :=
  Bool.and_true _

theorem allFit_of_le {p : Params} {b : BufName} {y : ByteSeq} (h : y.length ≤ p.cap b) : allFit p [(b, y)] = true :=
  allFit_singleton.trans (decide_eq_true h)

theorem allFit_of_lt {p : Params} {b : BufName} {y : ByteSeq} (h : p.cap b < y.length) : allFit p [(b, y)] = false :=
  allFit_singleton.trans (decide_eq_false (Nat.not_le.2 h))

theorem allFit_pair {p : Params} {b b' : BufName} {y y' : ByteSeq} :
    allFit p [(b, y), (b', y')] = (fits p b y && fits p b' y') := by
  rw [allFit, List.all_cons, ← allFit, allFit_singleton]

theorem bufferResults_bsfEnc (p : Params) {s : State} (hlen : lengthOperandOk s.arg0 = true)
    (hflag : flagOperandOk s.arg1 = true) :
    bufferResults p s .bsfEnc = .ok [(.fram, encodeBsf s.arg0.toNat (flagOperand s.arg1))] := by
  rw [bufferResults, hlen, hflag]; rfl

theorem bufferResults_blkWrite (p : Params) {s : State} (hmax : maxBlockOperandOk s.arg0 = true)
    (hflag : flagOperandOk s.arg1 = true) :
    bufferResults p s .blkWrite =
      .ok [(.fram, writeBlocks p.splitPolicy s.mem.payl s.arg0.toNat (flagOperand s.arg1))] := by
  rw [bufferResults, hmax, hflag]; rfl

/-- The ends of each command are those of its inversion lemma. -/
theorem command_ends (p : Params) (i : Instr) (s : State) : Ends p i s := by
  cases i with
  | bscSel => exact .fit rfl rfl rfl
  | hdrEnc =>
    rcases runHdrEnc_cases p s with ⟨hc, hr⟩ | ⟨hc, hr⟩
    · exact .fit rfl (allFit_of_le hc) hr
    · exact .overflow rfl (allFit_of_lt hc) hr
  | hdrDec =>
    rcases runHdrDec_cases p s with ⟨h, hd, hr⟩ | ⟨k, hd, hr⟩
    · exact .fit (by rw [bufferResults, hd]; rfl) rfl hr
    · refine .own (by rw [bufferResults, hd]; rfl) ?_ hr
      rcases decodeHeader_error hd with rfl | rfl | rfl <;> decide
  | bsfEnc =>
    rcases runBsfEnc_cases p s with ⟨harg, hflag, hc, hr⟩ | ⟨harg, hflag, hc, hr⟩ | ⟨hbad, hr⟩
    · exact .fit (bufferResults_bsfEnc p harg hflag) (allFit_of_le hc) hr
    · exact .overflow (bufferResults_bsfEnc p harg hflag) (allFit_of_lt hc) hr
    · exact .own (by rw [bufferResults, Bool.and_eq_false_iff.2 hbad]; rfl) (by decide) hr
  | bsfDec =>
    rcases runBsfDec_cases p s with ⟨h, hr⟩ | ⟨h, hr⟩
    · exact .fit (if_pos h) rfl hr
    · exact .own (if_neg (Nat.not_le.2 h)) (by decide) hr
  | blkWrite =>
    rcases runBlkWrite_cases p s with ⟨harg, hflag, hc, hr⟩ | ⟨harg, hflag, hc, hr⟩ | ⟨hbad, hr⟩
    · exact .fit (bufferResults_blkWrite p harg hflag) (allFit_of_le hc) hr
    · exact .overflow (bufferResults_blkWrite p harg hflag) (allFit_of_lt hc) hr
    · exact .own (by rw [bufferResults, Bool.and_eq_false_iff.2 hbad]; rfl) (by decide) hr
  | blkRead =>
    rcases runBlkRead_cases p s with ⟨r, hread, ⟨hf, hr⟩ | ⟨hf, hr⟩⟩ | ⟨hread, hr⟩
    · exact .fit (by rw [bufferResults, hread]; rfl) (allFit_singleton.trans hf) hr
    · exact .overflow (by rw [bufferResults, hread]; rfl) (allFit_singleton.trans hf) hr
    · exact .own (by rw [bufferResults, hread]; rfl) (by decide) hr
  | csumGen =>
    rcases runCsumGen_cases p s with ⟨hc, hr⟩ | ⟨hc, hr⟩
    · exact .fit rfl (allFit_of_le hc) hr
    · exact .overflow rfl (allFit_of_lt hc) hr
  | csumChk =>
    rcases runCsumChk_cases p s with ⟨w, hc, hr⟩ | ⟨k, hc, hr⟩
    · exact .fit (by rw [bufferResults, hc]; rfl) rfl hr
    · refine .own (by rw [bufferResults, hc]; rfl) ?_ hr
      rcases checkContent_error hc with ⟨rfl, -⟩ | ⟨rfl, -⟩ <;> decide
  | frameEnc =>
    rcases runFrameEnc_cases p s with ⟨c, hc, ⟨hf, hr⟩ | ⟨hf, hr⟩⟩ | ⟨hc, hr⟩
    · exact .fit (by rw [bufferResults, encodeFrame, hc]; rfl) (allFit_pair.trans hf) hr
    · exact .overflow (by rw [bufferResults, encodeFrame, hc]; rfl) (allFit_pair.trans hf) hr
    · exact .own (by rw [bufferResults, encodeFrame, hc]; rfl) (by decide) hr
  | frameDec =>
    rcases runFrameDec_cases p s with ⟨d, hd, ⟨hf, hr⟩ | ⟨hf, hr⟩⟩ | ⟨k, hd, hr⟩
    · exact .fit (by rw [bufferResults, hd]; rfl) (allFit_pair.trans hf) hr
    · exact .overflow (by rw [bufferResults, hd]; rfl) (allFit_pair.trans hf) hr
    · refine .own (by rw [bufferResults, hd]; rfl) ?_ hr
      rcases decodeFrame_error hd with rfl | rfl | rfl | rfl | rfl <;> decide

theorem runCommand_of_bufferResults_error {p : Params} {i : Instr} {s : State} {k : ErrKind}
    (h : bufferResults p s i = .error k) : runCommand p i s = .error k := by
  cases command_ends p i s with
  | own hown hne hrun => cases h.symm.trans hown; exact hrun
  | fit hres => cases h.symm.trans hres
  | overflow hres => cases h.symm.trans hres

theorem commandWith_success_of_allFit {p : Params} {i : Instr} {s : State} {outs : List (BufName × ByteSeq)}
    (h : bufferResults p s i = .ok outs) (hfit : allFit p outs = true) : (commandWith p i s).errFlag = false := by
  cases command_ends p i s with
  | own hown => cases h.symm.trans hown
  | fit hres hfit' hrun => rw [commandWith, hrun, State.complete_ok, State.succeed_errFlag]
  | overflow hres hover => cases h.symm.trans hres; cases hfit.symm.trans hover

/-- Buffers as long as all the results together hold each of them. -/
theorem exists_cap_allFit (p : Params) (outs : List (BufName × ByteSeq)) :
    ∃ cap, allFit (withCaps p cap cap cap) outs = true := by
  refine ⟨(outs.map fun out => out.2.length).sum, List.all_eq_true.2 fun out hout => fits_iff.2 ?_⟩
  have hle : out.2.length ≤ (outs.map fun out => out.2.length).sum := List.le_sum_of_mem (List.mem_map_of_mem hout)
  cases hb : out.1 <;> exact hle

/-- Settles O19: another kind than `CapacityExceeded` ends a command before it has results, at any capacities alike;
with results it ends by the capacities alone. -/
theorem capacityIsCheckedLast : Obligations.CapacityIsCheckedLast := by
  intro p i s k hk
  cases command_ends p i s with
  | own hown hne hrun =>
    cases hk.symm.trans hrun
    refine ⟨fun _ cc cp cf => ?_, fun heq => absurd heq hne⟩
    exact runCommand_of_bufferResults_error ((bufferResults_withCaps p s i cc cp cf).trans hown)
  | fit hres hfit hrun => cases hk.symm.trans hrun
  | overflow hres hover hrun =>
    cases hk.symm.trans hrun
    refine ⟨fun hne => absurd rfl hne, fun _ => ?_⟩
    obtain ⟨cap, hfit⟩ := exists_cap_allFit p _
    exact ⟨cap, commandWith_success_of_allFit ((bufferResults_withCaps p s i cap cap cap).trans hres) hfit⟩

/-! ### `FRAME_DEC`, the head of the order of checks (R177) -/

theorem decodeFrame_decodeHeader_error {p : Params} {f : ByteSeq} {k : ErrKind} (hh : decodeHeader p f = .error k) :
    decodeFrame p f = .error k := by
  rw [decodeFrame, hh]

theorem decodeFrame_readBlocks_error {p : Params} {f : ByteSeq} {h : FrameHeader} {k : ErrKind}
    (hh : decodeHeader p f = .ok h) (hr : readBlocks f 15 = .error k) : decodeFrame p f = .error k := by
  simp [decodeFrame, hdrLen, hh, hr]

/-- A failed `HDR_DEC` comes from a header that does not decode (R109). -/
theorem hdrDec_failure {p : Params} {s : State} (h : (commandWith p .hdrDec s).errFlag = true) :
    ∃ k, decodeHeader p s.mem.fram = .error k := by
  cases hd : decodeHeader p s.mem.fram with
  | ok d => rw [commandWith_hdrDec_ok hd, State.succeed_errFlag] at h; cases h
  | error k => exact ⟨k, rfl⟩

/-- Settles O47: `FRAME_DEC` decodes the header as `HDR_DEC` does, then reads records from offset 15. -/
theorem frameDecReportsHeaderThenBlockErrors : Obligations.FrameDecReportsHeaderThenBlockErrors := by
  refine fun p s => ⟨fun hfail => ?_, fun hok hnone => ?_⟩
  · obtain ⟨k, hk⟩ := hdrDec_failure hfail
    rw [commandWith_hdrDec_error hk, commandWith_frameDec_error (decodeFrame_decodeHeader_error hk)]
  · obtain ⟨d, hd⟩ := hdrDec_success hok
    have hread : readBlocks s.mem.fram 15 = .error .truncatedInput :=
      readBlocks_truncated fun ⟨hdr, post, recs, u, hlegal, hfram, hlen⟩ =>
        hnone ⟨hdr, post, recs, u, hlegal, hfram, hlen.symm⟩
    exact commandWith_frameDec_error (decodeFrame_readBlocks_error hd hread)

end Sys2Proof.Machine
end

section
/-! What a command ends with is a function of its operands (spec/70_reset_and_hazards.md R191;
spec/30_encoding.md R74; spec/10_state.md R32). -/

namespace Sys2Proof.Machine

/-- Two states hold the same operands of a command (R74, and R32, the column "reads"). -/
def SameOperands (i : Instr) (s s' : State) : Prop :=
  match i with
  | .bscSel => s.arg0 = s'.arg0
  | .hdrEnc | .bsfEnc => s.arg0 = s'.arg0 ∧ s.arg1 = s'.arg1
  | .blkWrite => s.arg0 = s'.arg0 ∧ s.arg1 = s'.arg1 ∧ s.mem.payl = s'.mem.payl
  | .hdrDec | .frameDec => s.mem.fram = s'.mem.fram
  | .bsfDec | .blkRead => s.off = s'.off ∧ s.mem.fram = s'.mem.fram
  | .csumGen | .frameEnc => s.mem.cont = s'.mem.cont
  | .csumChk => s.off = s'.off ∧ s.mem.cont = s'.mem.cont ∧ s.mem.fram = s'.mem.fram

/-- Two states hold the same results of a command (R74, and R32, the column "writes"). -/
def SameResults (i : Instr) (t t' : State) : Prop :=
  match i with
  | .bscSel | .bsfDec => t.res0 = t'.res0 ∧ t.res1 = t'.res1
  | .hdrEnc => t.res0 = t'.res0 ∧ t.res1 = t'.res1 ∧ t.mem.fram = t'.mem.fram
  | .hdrDec => t.off = t'.off ∧ t.hdrFlg = t'.hdrFlg ∧ t.hdrBd = t'.hdrBd ∧ t.hdrCsize = t'.hdrCsize ∧
      t.hdrHc = t'.hdrHc
  | .bsfEnc | .blkWrite | .csumGen => t.res0 = t'.res0 ∧ t.mem.fram = t'.mem.fram
  | .blkRead => t.res0 = t'.res0 ∧ t.res1 = t'.res1 ∧ t.off = t'.off ∧ t.mem.payl = t'.mem.payl
  | .csumChk => t.res0 = t'.res0
  | .frameEnc => t.res0 = t'.res0 ∧ t.res1 = t'.res1 ∧ t.mem.payl = t'.mem.payl ∧ t.mem.fram = t'.mem.fram
  | .frameDec => t.res0 = t'.res0 ∧ t.res1 = t'.res1 ∧ t.off = t'.off ∧ t.mem.payl = t'.mem.payl ∧
      t.mem.cont = t'.mem.cont ∧ t.hdrFlg = t'.hdrFlg ∧ t.hdrBd = t'.hdrBd ∧ t.hdrCsize = t'.hdrCsize ∧
      t.hdrHc = t'.hdrHc

/-- Two ends of a command's work that show no difference: one error kind, or two successes with the same results. -/
inductive EndAlike (i : Instr) : Except ErrKind State → Except ErrKind State → Prop
  | error (k : ErrKind) : EndAlike i (.error k) (.error k)
  | ok {t t' : State} (h : SameResults i t t') : EndAlike i (.ok t) (.ok t')

theorem EndAlike.ite {i : Instr} {c : Prop} [Decidable c] {x x' y y' : Except ErrKind State}
    (hx : EndAlike i x x') (hy : EndAlike i y y') : EndAlike i (if c then x else y) (if c then x' else y') := by
  split
  · exact hx
  · exact hy

/-- No result is reported in `STATUS` or `ERR`. -/
theorem SameResults.succeed {i : Instr} {t t' : State} (h : SameResults i t t') :
    SameResults i t.succeed t'.succeed := by
  cases i <;> exact h

theorem EndAlike.complete {i : Instr} {r r' : Except ErrKind State} (h : EndAlike i r r') (s s' : State) :
    (s.complete r).status = (s'.complete r').status ∧ (s.complete r).err = (s'.complete r').err ∧
      ((s.complete r).errFlag = false → SameResults i (s.complete r) (s'.complete r')) := by
  cases h with
  | error k => exact ⟨rfl, rfl, fun hok => by cases (s.raise_errFlag k).symm.trans hok⟩
  | ok hres => exact ⟨rfl, rfl, fun _ => hres.succeed⟩

/-- With the operands alike, both runs take the same branch with the same values in it. -/
theorem runCommand_endAlike (p : Params) {i : Instr} {s s' : State} (h : SameOperands i s s') :
    EndAlike i (runCommand p i s) (runCommand p i s') := by
  cases i with
  | bscSel =>
    have harg : s.arg0 = s'.arg0 := h
    simp only [runCommand, runBscSel, harg]
    exact .ok ⟨rfl, rfl⟩
  | hdrEnc =>
    obtain ⟨harg0, harg1⟩ := h
    simp only [runCommand, runHdrEnc, harg0, harg1]
    exact .ite (.ok ⟨rfl, rfl, rfl⟩) (.error _)
  | hdrDec =>
    have hfram : s.mem.fram = s'.mem.fram := h
    simp only [runCommand, runHdrDec, hfram]
    cases decodeHeader p s'.mem.fram with
    | error k => exact .error k
    | ok d => exact .ok ⟨rfl, rfl, rfl, rfl, rfl⟩
  | bsfEnc =>
    obtain ⟨harg0, harg1⟩ := h
    simp only [runCommand, runBsfEnc, harg0, harg1]
    exact .ite (.error _) (.ite (.error _) (.ite (.ok ⟨rfl, rfl⟩) (.error _)))
  | bsfDec =>
    obtain ⟨hoff, hfram⟩ := h
    simp only [runCommand, runBsfDec, hoff, hfram]
    exact .ite (.error _) (.ok ⟨rfl, rfl⟩)
  | blkWrite =>
    obtain ⟨harg0, harg1, hpayl⟩ := h
    simp only [runCommand, runBlkWrite, harg0, harg1, hpayl]
    exact .ite (.error _) (.ite (.error _) (.ite (.ok ⟨rfl, rfl⟩) (.error _)))
  | blkRead =>
    obtain ⟨hoff, hfram⟩ := h
    simp only [runCommand, runBlkRead, hoff, hfram]
    cases readBlocks s'.mem.fram s'.off.toNat with
    | error k => exact .error k
    | ok r => exact .ite (.ok ⟨rfl, rfl, rfl, rfl⟩) (.error _)
  | csumGen =>
    have hcont : s.mem.cont = s'.mem.cont := h
    simp only [runCommand, runCsumGen, hcont]
    exact .ite (.ok ⟨rfl, rfl⟩) (.error _)
  | csumChk =>
    obtain ⟨hoff, hcont, hfram⟩ := h
    simp only [runCommand, runCsumChk, hoff, hcont, hfram]
    cases checkContent p s'.mem.fram s'.off.toNat s'.mem.cont with
    | error k => exact .error k
    | ok w => exact .ok rfl
  | frameEnc =>
    have hcont : s.mem.cont = s'.mem.cont := h
    simp only [runCommand, runFrameEnc, hcont]
    cases encodeFrame p s'.mem.cont with
    | error k => exact .error k
    | ok e => exact .ite (.ok ⟨rfl, rfl, rfl, rfl⟩) (.error _)
  | frameDec =>
    have hfram : s.mem.fram = s'.mem.fram := h
    simp only [runCommand, runFrameDec, hfram]
    cases decodeFrame p s'.mem.fram with
    | error k => exact .error k
    | ok d => exact .ite (.ok ⟨rfl, rfl, rfl, rfl, rfl, rfl, rfl, rfl, rfl⟩) (.error _)

/-- Settles O18: the obligation's lists are `SameOperands` and `SameResults`, command by command. -/
theorem resultsDependOnlyOnOperands : Obligations.ResultsDependOnlyOnOperands := by
  intro p i s s' h t t'
  have hends : EndAlike i (runCommand p i s) (runCommand p i s') := runCommand_endAlike p (by cases i <;> exact h)
  obtain ⟨hstatus, herr, hres⟩ := hends.complete s s'
  exact ⟨hstatus, herr, fun hok => by cases i <;> exact hres hok⟩

end Sys2Proof.Machine
end

section
/-! `FRAME_DEC` and `FRAME_ENC` done by hand with the leaf commands (spec/70_reset_and_hazards.md R193;
spec/43_frame_ops.md R153 to R156). -/

namespace Sys2Proof.Machine

/-! ### Decoding by hand -/

/-- A successful `HDR_DEC` and then a successful `BLK_READ`: the header, and the run of records from offset 15. -/
theorem hdrDec_blkRead_success {p : Params} {s : State} (ha : (commandWith p .hdrDec s).errFlag = false)
    (hb : (commandWith p .blkRead (commandWith p .hdrDec s)).errFlag = false) :
    ∃ h r, decodeHeader p s.mem.fram = .ok h ∧ readBlocks s.mem.fram 15 = .ok r ∧ r.payload.length ≤ p.capPayl ∧
      commandWith p .blkRead (commandWith p .hdrDec s) = State.succeed
        { (s.setHeader h).setBuf .payl r.payload with
            res0 := BitVec.ofNat 64 r.count, res1 := boolResult r.allUnc, off := BitVec.ofNat 64 r.newOffset } := by
  obtain ⟨h, hh⟩ := hdrDec_success ha
  obtain ⟨r, hr, hpayl⟩ := blkRead_success hb
  have hblk := commandWith_blkRead_ok hr hpayl
  rw [commandWith_hdrDec_ok hh] at hr hblk ⊢
  exact ⟨h, r, hh, hr, hpayl, hblk⟩

/-- The host's two ways to a content, told apart by `RES1` of `BLK_READ`, are those of `DecodeFrame` (R155 step 3). -/
theorem recoverContent_by_hand {p : Params} {r : BlockRun} {csize : Word64} {y : ByteSeq}
    (h : boolResult r.allUnc = 1 ∧ y = r.payload ∨
      boolResult r.allUnc = 0 ∧ p.decompress r.payload r.payload.length csize.toNat = some y ∧
        y.length = csize.toNat) : recoverContent p r csize = .ok y := by
  cases hunc : r.allUnc with
  | true =>
    rw [hunc] at h
    rcases h with ⟨-, rfl⟩ | ⟨hzero, -⟩
    · exact recoverContent_stored p csize hunc
    · exact absurd hzero (by decide)
  | false =>
    rw [hunc] at h
    rcases h with ⟨hone, -⟩ | ⟨-, hd, hlen⟩
    · exact absurd hone (by decide)
    · exact recoverContent_answer hunc hd hlen

/-- Settles O52: the last step of both ways is the check of one content at one offset. -/
theorem leafCommandsComposeToFrameDec : Obligations.LeafCommandsComposeToFrameDec := by
  intro p s y hwf hmem a b ha hb hy hcont d f
  obtain ⟨h, r, hh, hr, hpayl, hbeq⟩ := hdrDec_blkRead_success ha hb
  change b = _ at hbeq
  rw [hbeq] at hy
  have hrec : recoverContent p r h.csize = .ok y := recoverContent_by_hand hy
  have hoff : (BitVec.ofNat 64 r.newOffset).toNat = r.newOffset := by
    obtain ⟨hle, -, -⟩ := readBlocks_bounds hr
    obtain ⟨-, -, hfram⟩ := Memory.wf_lengths hmem
    obtain ⟨-, -, hcap⟩ := wf_caps hwf
    exact Nat.mod_eq_of_lt (by omega)
  have hsame : checkContent p b.mem.fram b.off.toNat y = checkContent p s.mem.fram r.newOffset y := by
    rw [hbeq]; exact congrArg (checkContent p s.mem.fram · y) hoff
  cases hw : checkContent p s.mem.fram r.newOffset y with
  | error k =>
    have hd : d = State.raise _ k := commandWith_csumChk_error (hsame.trans hw)
    have hf : f = s.raise k := commandWith_frameDec_error (decodeFrame_checkContent_error hh hr hrec hw)
    rw [hd, hf]
    exact ⟨rfl, rfl, fun hok => by cases (s.raise_errFlag k).symm.trans hok⟩
  | ok w =>
    have hd : d = State.succeed _ := commandWith_csumChk_ok (hsame.trans hw)
    have hf : f = State.succeed _ := commandWith_frameDec_ok (decodeFrame_of_parts hh hr hrec hw) hpayl hcont
    rw [hd, hf, hbeq]
    exact ⟨rfl, rfl, fun _ => ⟨rfl, rfl, rfl, rfl, rfl, rfl, BitVec.ofNat_add _ _⟩⟩

/-! ### Encoding by hand -/

/-- `BLK_WRITE` with its operands as `HDR_ENC` and `FRAME_ENC` leave them in `RES1`. -/
theorem commandWith_blkWrite_of_results {p : Params} {s : State} {m : Nat} {u : Bool} (hm : 1 ≤ m) (hm' : m < 2 ^ 31)
    (harg0 : s.arg0 = BitVec.ofNat 64 m) (harg1 : s.arg1 = boolResult u)
    (hcap : (writeBlocks p.splitPolicy s.mem.payl m u).length ≤ p.capFram) :
    commandWith p .blkWrite s = State.succeed
      { s.setBuf .fram (writeBlocks p.splitPolicy s.mem.payl m u) with
          res0 := BitVec.ofNat 64 (split p.splitPolicy s.mem.payl.length m).length } := by
  have hmax : s.arg0.toNat = m := by rw [harg0]; exact Nat.mod_eq_of_lt (by omega)
  have hflag : s.arg1.toNat < 2 := by rw [harg1]; cases u <;> decide
  have hu : (s.arg1 == 1) = u := by rw [← flagOperand_eq hflag, harg1, flagOperand_boolResult]
  have hrun := commandWith_blkWrite_ok (p := p) (s := s) (by omega) (by omega) hflag
  rw [hmax, hu] at hrun
  exact hrun hcap

/-- The container of `FRAME_ENC` by the three pieces the leaf commands write (R153). -/
theorem assembleFrame_container_pieces (p : Params) (x c : ByteSeq) :
    (assembleFrame p x c).container =
      encodeHeader p (BitVec.ofNat 64 x.length) (assembleFrame p x c).payload.length ++
        writeBlocks p.splitPolicy (assembleFrame p x c).payload
          (classMax (classOf (assembleFrame p x c).payload.length)) (assembleFrame p x c).stored ++
        le32 (p.hash32 x) := rfl

/-- Settles O53: each piece is shorter than the container, so it fits where the container does. -/
theorem leafCommandsComposeToFrameEnc : Obligations.LeafCommandsComposeToFrameEnc := by
  intro p s hwf hmem hok t a b d
  obtain ⟨c, hc, hpayl, hfram⟩ := frameEnc_success hok
  have ht : t = State.succeed _ := commandWith_frameEnc_ok hc hpayl hfram
  have hplen : t.plen.toNat = (assembleFrame p s.mem.cont c).payload.length := by
    obtain ⟨-, hcap, -⟩ := wf_caps hwf
    rw [ht]
    exact Nat.mod_eq_of_lt (hpayl.trans_lt hcap)
  have hpieces := congrArg List.length (assembleFrame_container_pieces p s.mem.cont c)
  simp only [List.length_append, encodeHeader_length, le32_length] at hpieces
  have ha : a = State.succeed _ := commandWith_hdrEnc_ok (by omega) _
  have hd : d = State.succeed _ := commandWith_csumGen_ok s (by omega)
  have hmax : a.res1 = BitVec.ofNat 64 (classMax (classOf (assembleFrame p s.mem.cont c).payload.length)) := by
    rw [ha, ← hplen]; rfl
  obtain ⟨hm, hm'⟩ := classMax_bounds (classOf (assembleFrame p s.mem.cont c).payload.length)
  have hpayload : t.mem.payl = (assembleFrame p s.mem.cont c).payload := by rw [ht]; rfl
  have hstored : t.res1 = boolResult (assembleFrame p s.mem.cont c).stored := by rw [ht]; rfl
  have hb : b = State.succeed _ :=
    commandWith_blkWrite_of_results hm hm' hmax hstored (by rw [hpayload]; omega)
  have hheader : a.mem.fram =
      encodeHeader p (BitVec.ofNat 64 s.mem.cont.length) (assembleFrame p s.mem.cont c).payload.length := by
    rw [ha, ← hplen]; rfl
  refine ⟨?_, by rw [ha, State.succeed_errFlag], by rw [hb, State.succeed_errFlag],
    by rw [hd, State.succeed_errFlag], ?_⟩
  · rw [hheader, hb, hd, ht]
    exact assembleFrame_container_pieces ..
  · rw [hb, ht]
    rfl

end Sys2Proof.Machine
end

section
/-! A stored frame of an exact multiple under `SPLIT_POLICY = reference` (spec/70_reset_and_hazards.md R194;
spec/41_block_codec.md R133). -/

namespace Sys2Proof.Machine

/-- A zero-length block reads as the sentinel (R129): the body ends there, and the sentinel behind it is outside. -/
theorem frameBody_append_empty (p : Params) (flg bd : Byte) (csize : Word64) (recs : List (ByteSeq × Bool)) (u v : Bool) :
    frameBody p flg bd csize (recs ++ [([], u)]) v = frameBody p flg bd csize recs u ++ sentinel v := by
  simp [frameBody, records_append, encodeBsf_zero]

theorem classMax_classOf_multiple {n : Nat} (h0 : 0 < n) (hmul : n % 4000000 = 0) :
    classMax (classOf n) = 4000000 := by
  rw [classMax_classOf, if_neg (by omega), if_neg (by omega), if_neg (by omega)]

/-- The records of a stored frame under `reference`: those of `ceil`, then a zero-length one (R133). -/
theorem frameRecords_reference_multiple {p : Params} {x c : ByteSeq} (hpol : p.splitPolicy = .reference)
    (hlonger : x.length < c.length) (h0 : x ≠ []) (hmul : x.length % 4000000 = 0) :
    frameRecords p x c = blocksOf .ceil x 4000000 true ++ [([], true)] := by
  obtain ⟨hpayl, hstored⟩ := assembleFrame_of_longer p hlonger
  rw [frameRecords, hpol, hpayl, hstored, classMax_classOf_multiple (List.length_pos_of_ne_nil h0) hmul,
    blocksOf_reference_multiple true h0 hmul]

theorem sentinel_ne_le32 {w : Word32} (hw : w ≠ 0) : sentinel false ≠ le32 w := fun h =>
  hw (by rw [← unle32_le32 w, ← h]; rfl)

/-- Settles O54: the reader stops at the zero-length block, and the EndMark stands where the hash should. -/
theorem referenceSplitBreaksTheRoundTrip : Obligations.ReferenceSplitBreaksTheRoundTrip := by
  intro p s c hwf hpol hmem hc hlonger h0 hmul hhash hok
  obtain ⟨c', hc', hpayl, hfits⟩ := frameEnc_success hok
  cases hc.symm.trans hc'
  have hfram : (commandWith p .frameEnc s).mem.fram = (assembleFrame p s.mem.cont c).container := by
    rw [commandWith_frameEnc_ok hc hpayl hfits]; rfl
  rw [assembleFrame_container, assembledBody, frameRecords_reference_multiple hpol hlonger h0 hmul,
    frameBody_append_empty, List.append_assoc] at hfram
  have hrec := recoverContent_frameBodyRun_stored p (recs := blocksOf .ceil s.mem.cont 4000000 true)
    (BitVec.ofNat 64 s.mem.cont.length)
    ((allUncompressed_blocksOf .ceil (by decide) true s.mem.cont).trans (Bool.true_or _))
  rw [payloadOf_blocksOf .ceil (by decide)] at hrec
  rw [commandWith_frameDec_body_mismatch (blocksOf_legal (by decide) (by decide) true s.mem.cont) hfram hrec (by simp)
    (sentinel_ne_le32 hhash)]
  rfl

end Sys2Proof.Machine
end
